-- ==== Sys2Proof/Word.lean ====
section
/-!
DEFINITION. The word types of keccak256_sponge_engine: bytes, 64-bit lanes, the 64-bit command header
and the fixed byte arrays of the data model (10_state.md R17, R21; 20_memory.md R40; 30_encoding.md R50).
-/

namespace Sys2Proof

/-- A byte, the unit of data (20_memory.md R40). -/
abbrev Byte := BitVec 8

/-- A 64-bit lane of the permutation state (20_memory.md R33). -/
abbrev Lane := BitVec 64

/-- A command header `HDR` (30_encoding.md R50). -/
abbrev Header := BitVec 64

/-- A 200-byte array: the SpongeState `S` or a private copy `T` of it (10_state.md R17). -/
abbrev Sponge := Vector Byte 200

/-- A 136-byte array: the PendingBuffer `PB` (10_state.md R21). -/
abbrev Pending := Vector Byte 136

/-- A 32-byte digest (20_memory.md R36). -/
abbrev Digest := Vector Byte 32

end Sys2Proof
end

