-- ==== Sys2Proof/Config.lean ====
section
/-!
DEFINITION. The block's parameters (00_scope.md R4, R5). All are fixed: none is a runtime parameter.
The two parameters the spec leaves open are not constants here: `NUM_INSTANCES` is the number of
instances a State holds (log 3), and `CMD_PORT` is the index the host-side operations take (log 11).
The configuration field `keccakF` (R5, R112) is the function `Sys2Proof.Machine.keccakF`, the standard
Keccak-f[1600] of 44_permutation.md section 2 (log 1). The model has no opaque value: the spec leaves no
result of any command open (93_implementation_defined.md section 1).
-/

namespace Sys2Proof.Config

/-- `STATE_BYTES`: the size of `Sponge`. -/
def stateBytes : Nat := 200

/-- `LANES`. -/
def lanes : Nat := 25

/-- `LANE_BYTES`. -/
def laneBytes : Nat := 8

/-- `RATE`. The definitions write it 136, as the spec's pseudocode does. -/
def rate : Nat := 136

/-- `CAPACITY`. -/
def capacity : Nat := 64

/-- `PB_BYTES`: the size of `Pending`. -/
def pbBytes : Nat := 136

/-- `DIGEST_BYTES`: the size of `Digest`. -/
def digestBytes : Nat := 32

/-- `DS`, the domain separator byte: `0x01`, never SHA3's `0x06` (41_padding.md R77). -/
def domainSeparator : Byte := 0x01

/-- `PAD_END`, the pad end byte, XORed at state byte 135. -/
def padEnd : Byte := 0x80

/-- `ROUNDS` of the permutation. -/
def rounds : Nat := 24

/-- `PC_BITS`, the width of the PendingCount register (92_eei_decisions.md D19). -/
def pcBits : Nat := 8

/-- `LEN_BITS`, the width of a header's length field (92_eei_decisions.md D6). -/
def lenBits : Nat := 48

end Sys2Proof.Config
end

