-- ==== Sys2Proof/Syntax.lean ====
section
/-!
DEFINITION. The commands of the block: one constructor per row of spec/opcode_table.json, with the operands
of the abstract command type of 30_encoding.md R49.
-/

namespace Sys2Proof

/-- A command to an instance (30_encoding.md R49). A rejected header is no command: the decoder answers it
with the verdict Illegal (R61). -/
inductive Instr where
  /-- `RESET`: return the instance to its initial state (43_streaming.md R91). -/
  | reset
  /-- `WRITE chunk`: append `chunk` to the message (43_streaming.md R93). -/
  | write (chunk : List Byte)
  /-- `FINALIZE`: the digest of the message so far (43_streaming.md R99). -/
  | finalize
  /-- `SUM256 data`: one-shot hash of `data` (42_oneshot.md R84). -/
  | sum256 (data : List Byte)
deriving DecidableEq, Repr

/-- The payload bytes that follow the command's header: the byte-sequence operand of `WRITE` and `SUM256`;
`RESET` and `FINALIZE` take none (30_encoding.md R53). -/
def Instr.payload : Instr → List Byte
  | .reset => []
  | .write chunk => chunk
  | .finalize => []
  | .sum256 data => data

end Sys2Proof
end

