-- ==== Sys2Proof/WellFormed.lean ====
section
/-!
DEFINITION. Which commands the header can encode (30_encoding.md R53): the length field has 48 bits, so a
payload has at most 2^48 - 1 bytes. There is no other condition: any byte sequence, the empty one
included, is a legal operand (43_streaming.md R98; 30_encoding.md R58).
-/

namespace Sys2Proof

/-- The command's payload length fits the header's 48-bit `LEN` field. -/
abbrev WellFormed (i : Instr) : Prop := i.payload.length < 2 ^ 48

end Sys2Proof
end

