-- ==== Sys2Proof/Decode.lean ====
section
/-!
DEFINITION. The `KSE-CMD v1` wire format (30_encoding.md): header fields, framing, the total decoder, and
after it the encoder.
-/

namespace Sys2Proof

/-- `OPC`, header bits [7:0] (R50). -/
def Header.opc (h : Header) : Byte := h.extractLsb' 0 8

/-- `RSVD`, header bits [15:8] (R50). -/
def Header.rsvd (h : Header) : Byte := h.extractLsb' 8 8

/-- `LEN`, header bits [63:16], an unsigned number (R50, R53). -/
def Header.len (h : Header) : Nat := (h.extractLsb' 16 48).toNat

/-- The header whose wire bytes are `b0 … b7`, least significant byte first (R51). -/
def headerOfBytes (b0 b1 b2 b3 b4 b5 b6 b7 : Byte) : Header :=
  b7 ++ b6 ++ b5 ++ b4 ++ b3 ++ b2 ++ b1 ++ b0

/-- The 8 wire bytes of a header, least significant byte first (R51). -/
def headerBytes (h : Header) : List Byte :=
  [h.extractLsb' 0 8, h.extractLsb' 8 8, h.extractLsb' 16 8, h.extractLsb' 24 8,
   h.extractLsb' 32 8, h.extractLsb' 40 8, h.extractLsb' 48 8, h.extractLsb' 56 8]

/-- One whole command on the wire: its header and the `LEN` payload bytes after it (R50, R52). -/
structure Frame where
  hdr : Header
  payload : List Byte
deriving DecidableEq, Repr

/-- Cut the first whole command off a wire stream: `8 + LEN` bytes, whatever `OPC` and `RSVD` say (R52, R63).
`none` while the stream does not hold a whole command yet. -/
def takeFrame : List Byte → Option (Frame × List Byte)
  | b0 :: b1 :: b2 :: b3 :: b4 :: b5 :: b6 :: b7 :: body =>
    let h := headerOfBytes b0 b1 b2 b3 b4 b5 b6 b7
    if h.len ≤ body.length then some (⟨h, body.take h.len⟩, body.drop h.len) else none
  | _ => none

/-- The verdict Illegal of R61, with the condition of R59 that the header meets. All three get the same
response, so which of them is named cannot be observed (60_exceptions.md R130). -/
inductive Illegal where
  /-- `RSVD != 0x00` (R59, condition 2). -/
  | reservedFieldNonzero
  /-- `OPC` is `0x01` or `0x03` and `LEN != 0` (R59, condition 3). -/
  | lengthNonzero
  /-- `OPC` is `0x00` or `0x05` to `0xFF` (R59, condition 1; R62). -/
  | reservedOpcode
deriving DecidableEq, Repr

/-- The decoder: total on every header and payload (R61). -/
def decode (h : Header) (payload : List Byte) : Except Illegal Instr :=
  if h.rsvd ≠ 0x00 then .error .reservedFieldNonzero
  else if h.opc = 0x01 then (if h.len = 0 then .ok .reset else .error .lengthNonzero)
  else if h.opc = 0x02 then .ok (.write payload)
  else if h.opc = 0x03 then (if h.len = 0 then .ok .finalize else .error .lengthNonzero)
  else if h.opc = 0x04 then .ok (.sum256 payload)
  else .error .reservedOpcode

/-- The operation code of a command (R54). -/
def opcode : Instr → Byte
  | .reset => 0x01
  | .write _ => 0x02
  | .finalize => 0x03
  | .sum256 _ => 0x04

/-- The header of a command, `(len << 16) | OPC` (R50, R65). -/
def encodeHeader (i : Instr) : Header :=
  (BitVec.ofNat 64 i.payload.length <<< 16) ||| (opcode i).setWidth 64

/-- The wire bytes of a command: its header, then its payload (R50 to R53, R55 to R58). -/
def encode (i : Instr) : List Byte := headerBytes (encodeHeader i) ++ i.payload

/-- The header of the instruction whose bits are `w`, as spec/opcode_table.json numbers them: bits at or
above `nbits` are 0. -/
def tableHeader (nbits w : Nat) : Header := BitVec.ofNat 64 (w % 2 ^ nbits)

/-- The payload of that instruction: the `LEN` bytes above bit 63, zero where `nbits` does not reach them. -/
def tablePayload (nbits w : Nat) : List Byte :=
  (List.range (tableHeader nbits w).len).map fun k => BitVec.ofNat 8 ((w % 2 ^ nbits) >>> (64 + 8 * k))

/-- That instruction as wire bytes. -/
def tableBytes (nbits w : Nat) : List Byte := headerBytes (tableHeader nbits w) ++ tablePayload nbits w

/-- What the decoder reads from the instruction whose bits are `w`; `none` where it rejects it. -/
def decodeTableWord (nbits w : Nat) : Option Instr :=
  match decode (tableHeader nbits w) (tablePayload nbits w) with
  | .ok i => some i
  | .error _ => none

end Sys2Proof
end

