-- ==== Sys2Proof/Machine/State.lean ====
section
/-!
DEFINITION. The state of the machine (10_state.md section 1; 60_exceptions.md R139, R142): every instance's
`S`, `PB` and `PC`, and the bytes and responses on its command channel. The block has no program counter,
register file, flag, control register, fault state or counter (R28 to R30, R128, R131, R135).
-/

namespace Sys2Proof.Machine

/-- The architectural state of one engine instance: the spec's own record (10_state.md section 1). -/
structure Engine where
  /-- SpongeState (R17). -/
  S : Sponge
  /-- PendingBuffer; only `PB[0..PC)` is meaningful (R21, R22). -/
  PB : Pending
  /-- PendingCount, 0 to 135 (R24, R25; log 12). -/
  PC : Fin 136
deriving DecidableEq, Repr

/-- A response to one command (30_encoding.md R60; 60_exceptions.md R127). No other response exists, so a
reserved status is never sent. -/
inductive Response where
  /-- Status `0x00`: an accepted `RESET` or `WRITE`. -/
  | ok
  /-- Status `0x00` and the 32 digest bytes: an accepted `FINALIZE` or `SUM256`. -/
  | okDigest (digest : Digest)
  /-- Status `0x01`, ILLEGAL_COMMAND: a rejected header (60_exceptions.md R126). -/
  | illegalCommand
deriving DecidableEq, Repr

/-- One engine instance and its command channel. -/
structure Instance where
  engine : Engine
  /-- Wire bytes sent by the host and not yet consumed: the instance's command queue (R142; log 5). -/
  rx : List Byte
  /-- Responses sent and not yet collected by the host, oldest first. The model's own field: a returned
  digest is not state of the block (R31), and no command reads it (log 6). -/
  tx : List Response
deriving DecidableEq, Repr

/-- The machine: every instance of the system (R139), at least one. -/
structure State where
  /-- The instance that executes at the next step (log 4). -/
  cur : Instance
  /-- The other instances, in the order of their turns. Instances have no identifiers (R140). -/
  others : List Instance
deriving DecidableEq, Repr

/-- Why the machine stops with a fault. The spec has no such case: no command raises an exception for any
operand (60_exceptions.md R125), and no behaviour of the block is stuck (93_implementation_defined.md
section 1). So there is no constructor, nobody raises a fault, and leaving faults out is safe. -/
inductive Fault where
deriving DecidableEq, Repr

/-- Why a command has no meaning. -/
inductive Refusal where
  /-- Raised by an arm of `exec` whose command is not modelled yet; no arm does, since all four commands have
  their meaning. It would be safe. -/
  | notModelled (mnemonic : String)
deriving DecidableEq, Repr

/-- An engine right after creation, the source's `new()` (70_reset_and_hazards.md R143): `S` all zero (R20)
and `PC = 0` (R26), as the spec says. DESIGN CHOICE (unsafe, log 2): `PB`, which the spec leaves unspecified
(R23), is all zero. -/
def Engine.fresh : Engine := { S := Vector.replicate 200 0, PB := Vector.replicate 136 0, PC := 0 }

/-- An instance right after creation: its engine fresh, no command issued, no response sent (R143, R146). -/
def Instance.fresh : Instance := { engine := Engine.fresh, rx := [], tx := [] }

/-- The power-on state of a system of `n + 1` instances (R139, R143). -/
def State.powerOn (n : Nat) : State := { cur := Instance.fresh, others := List.replicate n Instance.fresh }

/-- The machine right after reset. DESIGN CHOICE (unsafe, log 3): NUM_INSTANCES, an open parameter of at
least 1 (R5), is 1 here. -/
def State.reset : State := State.powerOn 0

end Sys2Proof.Machine
end

