-- ==== Sys2Proof/Machine/Ops.lean ====
section
/-!
DEFINITION. The named operations over the byte arrays, the engine and the command channel, and the one
exception, IllegalCommand (60_exceptions.md R126).
-/

namespace Sys2Proof.Machine

/-- `zero200`, the all-zero sponge state (10_state.md R20). -/
def zero200 : Sponge := Vector.replicate 200 0

/-- The vector whose entry `i` is `f i`. (Built from a list, which Lean's kernel evaluates in linear time.) -/
def vectorOf {n : Nat} {α : Type} (f : Fin n → α) : Vector α n := ⟨(List.ofFn f).toArray, by simp⟩

/-- `X[i] <- X[i] xor b` (00_scope.md R7). Every caller has `i < 200`. -/
def xorAt (X : Sponge) (i : Nat) (b : Byte) : Sponge := X.setIfInBounds i (X[i]?.getD 0 ^^^ b)

/-- The list with its entries from `start` on replaced by `bytes`, as far as both reach. -/
def overwrite : List Byte → Nat → List Byte → List Byte
  | [], _, _ => []
  | x :: xs, 0, [] => x :: xs
  | _ :: xs, 0, b :: bs => b :: overwrite xs 0 bs
  | x :: xs, start + 1, bs => x :: overwrite xs start bs

theorem overwrite_length (l : List Byte) (start : Nat) (bytes : List Byte) :
    (overwrite l start bytes).length = l.length := by
  fun_induction overwrite l start bytes <;> simp_all

/-- `PB[start .. start+len(bytes)) <- bytes` (43_streaming.md R93). Every caller stays within the 136 bytes. -/
def putPending (PB : Pending) (start : Nat) (bytes : List Byte) : Pending :=
  ⟨(overwrite PB.toList start bytes).toArray, by simp [overwrite_length]⟩

/-- `PB[0..PC)`, the pending bytes, the only meaningful part of `PB` (10_state.md R22). -/
def pendingBytes (e : Engine) : List Byte := e.PB.toList.take e.PC.val

/-- The 64-bit value of the first eight bytes of a sequence, little-endian: the first byte is bits [7:0], the
eighth is bits [63:56] (20_memory.md R33). -/
def firstLane : List Byte → Lane
  | b0 :: b1 :: b2 :: b3 :: b4 :: b5 :: b6 :: b7 :: _ => b7 ++ b6 ++ b5 ++ b4 ++ b3 ++ b2 ++ b1 ++ b0
  | _ => 0

/-- `lane(X, j)`, bytes `X[8j]` to `X[8j+7]` of a 200-byte array (20_memory.md R33). -/
def lane (X : Sponge) (j : Fin 25) : Lane := firstLane (X.toList.drop (8 * j.val))

/-- The wire bytes of a response: 1 or 33 of them (30_encoding.md R60). -/
def responseBytes : Response → List Byte
  | .ok => [0x00]
  | .okDigest d => 0x00 :: d.toList
  | .illegalCommand => [0x01]

/-- A command has taken effect: the executing instance's engine is `e` and its response `r` is sent after
every earlier one (30_encoding.md R60; 70_reset_and_hazards.md R148, R149). No other instance changes
(20_memory.md R47). -/
def complete (s : State) (e : Engine) (r : Response) : State :=
  { s with cur := { s.cur with engine := e, tx := s.cur.tx ++ [r] } }

/-- IllegalCommand (60_exceptions.md R126): `S`, `PB` and `PC` are neither read nor written, nothing is
recorded (R128), and the response is status `0x01`. Its payload has left the queue with its header (R52). -/
def rejectCommand (s : State) : State := complete s s.cur.engine .illegalCommand

/-- The command just taken off the executing instance's queue leaves `rest` in it. -/
def consume (s : State) (rest : List Byte) : State := { s with cur := { s.cur with rx := rest } }

/-- The turn passes to the next instance (log 4). With one instance this changes nothing. -/
def passTurn (s : State) : State :=
  match s.others with
  | [] => s
  | next :: later => { cur := next, others := later ++ [s.cur] }

/-- `passTurn` after a command that answers a next state. -/
def thenPassTurn : Host.Outcome State Fault Refusal → Host.Outcome State Fault Refusal
  | .next t => .next (passTurn t)
  | .fault f => .fault f
  | .refused r => .refused r

/-- Every instance of the system, the one whose turn it is first. -/
def instances (s : State) : List Instance := s.cur :: s.others

end Sys2Proof.Machine
end

