-- ==== Sys2Proof/Machine/Permutation.lean ====
section
/-!
DEFINITION. PermutationCore (44_permutation.md): the configuration field `keccakF` of R112, here the standard
Keccak-f[1600] that R111 requires, by the reference definition R116 to R123. PRESUMED: the spec gives that
definition as informative, from general knowledge (log 1).
-/

namespace Sys2Proof.Machine

/-- The 5 x 5 array of lanes `A[x, y]`, written `A[x][y]`; indices are modulo 5 (R116). -/
abbrev LaneGrid := Vector (Vector Lane 5) 5

/-- The grid whose lane at `x, y` is `f x y`. -/
def gridOf (f : Fin 5 → Fin 5 → Lane) : LaneGrid := vectorOf fun x => vectorOf fun y => f x y

/-- `A[x, y] = lane(X, x + 5y)` (R116). -/
def toGrid (X : Sponge) : LaneGrid := gridOf fun x y => lane X ⟨x.val + 5 * y.val, by omega⟩

/-- Lane `A[x, y]` written back to bytes `8(x+5y)` to `8(x+5y)+7`, little-endian (R123): byte `i` lies in
lane `i / 8`, which is `A[(i / 8) mod 5, i / 40]`. -/
def ofGrid (A : LaneGrid) : Sponge :=
  vectorOf fun i => (A[i.val / 8 % 5][i.val / 40]).extractLsb' (8 * (i.val % 8)) 8

/-- `rotl(v, r)`: rotate a lane left by `r` bits (R116). -/
def rotl (v : Lane) (r : Nat) : Lane := v.rotateLeft r

/-- Step θ (R118). -/
def theta (A : LaneGrid) : LaneGrid :=
  let C : Vector Lane 5 := vectorOf fun x => A[x][0] ^^^ A[x][1] ^^^ A[x][2] ^^^ A[x][3] ^^^ A[x][4]
  let D : Vector Lane 5 := vectorOf fun x => C[x - 1] ^^^ rotl C[x + 1] 1
  gridOf fun x y => A[x][y] ^^^ D[x]

/-- The table of R119 read row by row, `x` = 0 to 4. -/
def rhoTable : Vector Nat 25 :=
  #v[0, 36, 3, 41, 18,
     1, 44, 10, 45, 2,
     62, 6, 43, 15, 61,
     28, 55, 25, 21, 56,
     27, 20, 39, 8, 14]

/-- The rotation offset `r[x, y]` of step ρ, in row `x` and column `y` of the table (R119). -/
def rhoOffset (x y : Fin 5) : Nat := rhoTable[5 * x.val + y.val]

/-- Step ρ (R119). -/
def rho (A : LaneGrid) : LaneGrid := gridOf fun x y => rotl A[x][y] (rhoOffset x y)

/-- Step π, `B[y, 2x + 3y] = A[x, y]` (R120), read at the target: with `u = y` and `v = 2x + 3y` modulo 5,
`x = u + 3v`, so `B[u, v] = A[u + 3v, u]`. -/
def piStep (A : LaneGrid) : LaneGrid := gridOf fun u v => A[u + 3 * v][u]

/-- Step χ (R121). -/
def chi (B : LaneGrid) : LaneGrid := gridOf fun x y => B[x][y] ^^^ (~~~B[x + 1][y] &&& B[x + 2][y])

/-- The positions of the bits that are 1 in `RC[0]` to `RC[23]`, read off the table of R122: each constant has few. -/
def roundBits : Vector (List Nat) 24 :=
  #v[[0], [1, 7, 15], [1, 3, 7, 15, 63], [15, 31, 63],
     [0, 1, 3, 7, 15], [0, 31], [0, 7, 15, 31, 63], [0, 3, 15, 63],
     [1, 3, 7], [3, 7], [0, 3, 15, 31], [1, 3, 31],
     [0, 1, 3, 7, 15, 31], [0, 1, 3, 7, 63], [0, 3, 7, 15, 63], [0, 1, 15, 63],
     [1, 15, 63], [7, 63], [1, 3, 15], [1, 3, 31, 63],
     [0, 7, 15, 31, 63], [7, 15, 63], [0, 31], [3, 15, 31, 63]]

/-- The lane whose 1 bits are at the positions listed. -/
def laneOfBits (bits : List Nat) : Lane := bits.foldr (fun b v => BitVec.twoPow 64 b ||| v) 0

/-- The round constant `RC[ir]` (R122). -/
def roundConstant (ir : Fin 24) : Lane := laneOfBits roundBits[ir]

/-- Step ι of round `ir` (R122). -/
def iota (ir : Fin 24) (A : LaneGrid) : LaneGrid :=
  gridOf fun x y => if x = 0 ∧ y = 0 then A[x][y] ^^^ roundConstant ir else A[x][y]

/-- One round: θ, ρ, π, χ, ι in that order (R117). -/
def keccakRound (A : LaneGrid) (ir : Fin 24) : LaneGrid := iota ir (chi (piStep (rho (theta A))))

/-- The 24 rounds, `ir` = 0 to 23 in order (R117). -/
def keccakRounds (A : LaneGrid) : LaneGrid := (List.finRange 24).foldl keccakRound A

/-- `KeccakF(X)`: stateless, deterministic, without faults, writing all 200 bytes of its argument and nothing
else (R111 to R114). One function, the same in every instance and at every time (R115, R153). Irreducible,
so that no proof about the sponge unfolds 24 rounds by accident: none of them depends on which permutation
this is. -/
@[irreducible] def keccakF (X : Sponge) : Sponge := ofGrid (keccakRounds (toGrid X))

end Sys2Proof.Machine
end

