-- ==== Sys2Proof/Machine/Absorb.lean ====
section
/-!
DEFINITION. The absorption primitives of the absorption_state_machine sub-block (40_absorption.md). The host
cannot issue them; the commands call them. None faults and none writes a flag.
-/

namespace Sys2Proof.Machine

/-- The list with its first entries XORed with those of `blk`, as far as both reach. -/
def xorFront : List Byte → List Byte → List Byte
  | [], _ => []
  | x :: xs, [] => x :: xs
  | x :: xs, b :: bs => (x ^^^ b) :: xorFront xs bs

theorem xorFront_length (l blk : List Byte) : (xorFront l blk).length = l.length := by
  fun_induction xorFront l blk <;> simp_all

/-- `absorbBlock(X, blk)`: XOR byte `i` of the block into byte `i` of the state, for `i < len(blk)`; every
other byte unchanged, and no permutation (R67 to R70). -/
def absorbBlock (X : Sponge) (blk : List Byte) : Sponge :=
  ⟨(xorFront X.toList blk).toArray, by simp [xorFront_length]⟩

/-- The wide-word form of `absorbBlock` (20_memory.md R39; 40_absorption.md R67): the block's whole 8-byte
lanes are XORed as 64-bit words, and its last `len(blk) mod 8` bytes one by one. No command calls it: it is
the variant an implementation may use, and which form is used cannot be observed (R34). -/
def absorbBlockWide (X : Sponge) (blk : List Byte) : Sponge :=
  vectorOf fun i =>
    if i.val < 8 * (blk.length / 8) then
      (lane X ⟨i.val / 8, by omega⟩ ^^^ firstLane (blk.drop (8 * (i.val / 8)))).extractLsb' (8 * (i.val % 8)) 8
    else if h : i.val < blk.length then X[i] ^^^ blk[i.val]
    else X[i]

/-- `absorbPermute(X, blk)`: absorb one full block and permute once (R71). Every caller passes 136 bytes. -/
def absorbPermute (X : Sponge) (blk : List Byte) : Sponge := keccakF (absorbBlock X blk)

/-- Absorb every full 136-byte block of `B` in order, starting from the state `X`. -/
def absorbFrom (X : Sponge) (B : List Byte) : Sponge :=
  (List.range (B.length / 136)).foldl (fun Y b => absorbPermute Y ((B.drop (136 * b)).take 136)) X

/-- `AbsorbAll(B)`: every full block of `B` in order, from the all-zero state (R72). -/
def absorbAll (B : List Byte) : Sponge := absorbFrom zero200 B

/-- A run of the absorb loop: the state, the bytes not yet absorbed, and the number of permutations applied
so far. The count is the amount of work of 70_reset_and_hazards.md R156; nothing reads it. It is no state of
the block, which has no counter (60_exceptions.md R135). -/
structure Absorbing where
  X : Sponge
  rest : List Byte
  perms : Nat
deriving DecidableEq, Repr

/-- One iteration of the absorb loop: absorb and permute the next 136 bytes. -/
def absorbNext (a : Absorbing) : Absorbing :=
  { X := absorbPermute a.X (a.rest.take 136), rest := a.rest.drop 136, perms := a.perms + 1 }

/-- `while n - i >= 136` (R84, R93), at most `fuel` iterations. -/
def absorbLoop : Nat → Absorbing → Absorbing
  | 0, a => a
  | fuel + 1, a => if 136 ≤ a.rest.length then absorbLoop fuel (absorbNext a) else a

/-- The whole loop. Each iteration takes 136 bytes off `rest`, so its length is more fuel than needed. -/
def absorbBlocks (a : Absorbing) : Absorbing := absorbLoop a.rest.length a

end Sys2Proof.Machine
end

