-- ==== Sys2Proof/Machine/Padding.lean ====
section
/-!
DEFINITION. The padding_and_domain_separator sub-block (41_padding.md): padding, the final permutation and
the 32-byte squeeze.
-/

namespace Sys2Proof.Machine

/-- `pad(X, t)`: two XORs one after the other, `0x01` at byte `t` and `0x80` at byte 135, so that for
`t = 135` they combine to `0x81` on the same byte (R75, R76, R77). Every caller has `t <= 135`. -/
def pad (X : Sponge) (t : Nat) : Sponge := xorAt (xorAt X t Config.domainSeparator) 135 Config.padEnd

/-- Digest byte `i` is `X[i]`, for `i` in 0 to 31 (20_memory.md R36). -/
def digestOf (X : Sponge) : Digest := vectorOf fun i => X[i.val]

/-- `squeeze(X2)`: one permutation, then the first 32 bytes (R78, R80). -/
def squeeze (X : Sponge) : Digest := digestOf (keccakF X)

/-- `finish(X, tail)`: absorb the tail of 0 to 135 bytes, pad at its end, squeeze (R79). -/
def finish (X : Sponge) (tail : List Byte) : Digest := squeeze (pad (absorbBlock X tail) tail.length)

end Sys2Proof.Machine
end

