-- ==== Sys2Proof/Machine/OneShot.lean ====
section
/-!
DEFINITION. The one-shot command `SUM256` (42_oneshot.md).
-/

namespace Sys2Proof.Machine

/-- The absorb loop of `SUM256`, from a private all-zero state `T`, zeroed once (R84, R85). -/
def sum256Loop (data : List Byte) : Absorbing := absorbBlocks { X := zero200, rest := data, perms := 0 }

/-- The digest of `SUM256 data`: the loop, then `finish` on the tail it leaves (R84). -/
def sum256Digest (data : List Byte) : Digest := finish (sum256Loop data).X (sum256Loop data).rest

/-- `SUM256 data` (R84): answers the digest; reads and writes none of `S`, `PB`, `PC` (R86). DESIGN CHOICE (safe,
log 16): it is always sent to an instance. R142 also allows a separate stateless one-shot unit, which the model does
not have; by R86 the result is the same. -/
def execSum256 (data : List Byte) (s : State) : Host.Outcome State Fault Refusal :=
  .next (complete s s.cur.engine (.okDigest (sum256Digest data)))

end Sys2Proof.Machine
end

