-- ==== Sys2Proof/Machine/Streaming.lean ====
section
/-!
DEFINITION. The streaming commands `RESET`, `WRITE` and `FINALIZE` (43_streaming.md), and the phase machine
inside `WRITE` (R102).
-/

namespace Sys2Proof.Machine

/-- The engine after `RESET`: `S` all zero and `PC = 0`; `PB` is not written (R91). -/
def resetEngine (e : Engine) : Engine := { e with S := zero200, PC := 0 }

/-- `RESET` (R91). -/
def execReset (s : State) : Host.Outcome State Fault Refusal :=
  .next (complete s (resetEngine s.cur.engine) .ok)

/-- The values a `WRITE` works on between two of its phases, which no command and no agent observes (R103;
00_scope.md R8). `pc` may reach 136 here and only here (10_state.md R24). `rest` is `chunk[i..n)`; `perms` counts
permutations, as in `Absorbing`. -/
structure WriteWork where
  S : Sponge
  PB : Pending
  pc : Nat
  rest : List Byte
  perms : Nat
deriving DecidableEq, Repr

/-- A `WRITE` of `chunk` starts from the engine's state with nothing consumed. -/
def writeStart (e : Engine) (chunk : List Byte) : WriteWork :=
  { S := e.S, PB := e.PB, pc := e.PC.val, rest := chunk, perms := 0 }

/-- Phase TOPUP: when bytes are pending, copy `min(136 - PC, n)` bytes of the chunk into `PB` (R93). -/
def topUp (w : WriteWork) : WriteWork :=
  if 0 < w.pc then
    let take := min (136 - w.pc) w.rest.length
    { w with PB := putPending w.PB w.pc (w.rest.take take), pc := w.pc + take, rest := w.rest.drop take }
  else w

/-- Phase ABSORB_PB: a full buffer is absorbed and the count set to 0 (R93, R102). -/
def absorbPending (w : WriteWork) : WriteWork :=
  if w.pc = 136 then
    { w with S := absorbPermute w.S w.PB.toList, pc := 0, perms := w.perms + 1 }
  else w

/-- Phase FAST: full blocks straight from the chunk; writes neither `PB` nor `PC` (R93, R94). -/
def fastBlocks (w : WriteWork) : WriteWork :=
  let a := absorbBlocks { X := w.S, rest := w.rest, perms := w.perms }
  { w with S := a.X, rest := a.rest, perms := a.perms }

/-- Phase TAIL: keep the remainder in `PB[PC..PC+r)` and add `r` to `PC` (R93, R95). -/
def keepTail (w : WriteWork) : WriteWork :=
  { w with PB := putPending w.PB w.pc w.rest, pc := w.pc + w.rest.length, rest := [] }

/-- All phases of a `WRITE`, in the order of R102. -/
def writeWork (e : Engine) (chunk : List Byte) : WriteWork :=
  keepTail (fastBlocks (absorbPending (topUp (writeStart e chunk))))

theorem absorbLoop_rest_lt (fuel : Nat) :
    ∀ a : Absorbing, a.rest.length < fuel + 136 → (absorbLoop fuel a).rest.length < 136 := by
  induction fuel with
  | zero => intro a h; simpa [absorbLoop] using h
  | succ fuel ih =>
    intro a h
    rw [absorbLoop]
    split
    · exact ih _ (by simp only [absorbNext, List.length_drop]; omega)
    · omega

theorem absorbLoop_of_short (fuel : Nat) (a : Absorbing) (h : a.rest.length < 136) :
    absorbLoop fuel a = a := by
  cases fuel with
  | zero => rfl
  | succ fuel => rw [absorbLoop, if_neg (by omega)]

/-- After phases TOPUP and ABSORB_PB the buffer is not full, and it is empty unless the chunk is used up (R97). -/
theorem pc_after_absorbPending (e : Engine) (chunk : List Byte) :
    (absorbPending (topUp (writeStart e chunk))).pc < 136 ∧
      ((absorbPending (topUp (writeStart e chunk))).pc = 0 ∨
        (absorbPending (topUp (writeStart e chunk))).rest = []) := by
  have hpc := e.PC.isLt
  by_cases h0 : 0 < e.PC.val
  · by_cases hfull : e.PC.val + min (136 - e.PC.val) chunk.length = 136
    · simp [absorbPending, topUp, writeStart, h0, hfull]
    · have : min (136 - e.PC.val) chunk.length = chunk.length := by omega
      simp only [absorbPending, topUp, writeStart, h0, hfull, if_true, if_false]
      exact ⟨by omega, .inr (by rw [this]; simp)⟩
  · have : e.PC.val = 0 := by omega
    simp [absorbPending, topUp, writeStart, this]

/-- After a `WRITE` the pending count is below 136 again (R96). -/
theorem writeWork_pc_lt (e : Engine) (chunk : List Byte) : (writeWork e chunk).pc < 136 := by
  obtain ⟨hlt, h0 | hnil⟩ := pc_after_absorbPending e chunk
  · have := absorbLoop_rest_lt (absorbPending (topUp (writeStart e chunk))).rest.length
      ⟨(absorbPending (topUp (writeStart e chunk))).S, (absorbPending (topUp (writeStart e chunk))).rest,
        (absorbPending (topUp (writeStart e chunk))).perms⟩ (by simp)
    simpa [writeWork, keepTail, fastBlocks, absorbBlocks, h0] using this
  · simpa [writeWork, keepTail, fastBlocks, absorbBlocks, hnil, absorbLoop] using hlt

/-- The engine after `WRITE chunk` (R93). -/
def writeEngine (e : Engine) (chunk : List Byte) : Engine :=
  { S := (writeWork e chunk).S, PB := (writeWork e chunk).PB,
    PC := ⟨(writeWork e chunk).pc, writeWork_pc_lt e chunk⟩ }

/-- `WRITE chunk` (R93). -/
def execWrite (chunk : List Byte) (s : State) : Host.Outcome State Fault Refusal :=
  .next (complete s (writeEngine s.cur.engine chunk) .ok)

/-- The digest of `FINALIZE`: `finish` on a private copy of `S` and the pending bytes (R99). -/
def finalizeDigest (e : Engine) : Digest := finish e.S (pendingBytes e)

/-- `FINALIZE` (R99): writes none of `S`, `PB`, `PC`. -/
def execFinalize (s : State) : Host.Outcome State Fault Refusal :=
  .next (complete s s.cur.engine (.okDigest (finalizeDigest s.cur.engine)))

/-- The micro-states of one `WRITE` (R102). -/
inductive Phase where
  | idle | topUp | absorbPB | fast | tail
deriving DecidableEq, Repr

/-- The phase in which a `WRITE` leaves IDLE: TOPUP if bytes are pending, else FAST (R102). -/
def firstPhase (e : Engine) : Phase := if 0 < e.PC.val then .topUp else .fast

/-- One move of the phase machine of R102; FAST absorbs one block a move. `WRITE` is atomic, so the machine
never steps through these moves: they are the spec's view of its inside. -/
def phaseMove : Phase × WriteWork → Phase × WriteWork
  | (.idle, w) => (.idle, w)
  | (.topUp, w) => (if (topUp w).pc = 136 then .absorbPB else .tail, topUp w)
  | (.absorbPB, w) => (.fast, absorbPending w)
  | (.fast, w) =>
    if 136 ≤ w.rest.length then
      let a := absorbNext { X := w.S, rest := w.rest, perms := w.perms }
      (.fast, { w with S := a.X, rest := a.rest, perms := a.perms })
    else (.tail, w)
  | (.tail, w) => (.idle, keepTail w)

/-- How many permutations a command applies to the engine it is sent to (70_reset_and_hazards.md R156).
`finish` applies exactly one (41_padding.md R78, R80). -/
def permutations (i : Instr) (e : Engine) : Nat :=
  match i with
  | .reset => 0
  | .write chunk => (writeWork e chunk).perms
  | .finalize => 1
  | .sum256 data => (sum256Loop data).perms + 1

end Sys2Proof.Machine
end

