-- ==== Sys2Proof/Machine/Dispatch.lean ====
section
/-!
DEFINITION. One arm per command, each a direct call of its meaning.
-/

namespace Sys2Proof.Machine

def exec (i : Instr) (s : State) : Host.Outcome State Fault Refusal :=
  match i with
  | .reset => Sys2Proof.Machine.execReset s
  | .write chunk => Sys2Proof.Machine.execWrite chunk s
  | .finalize => Sys2Proof.Machine.execFinalize s
  | .sum256 data => Sys2Proof.Machine.execSum256 data s

end Sys2Proof.Machine
end

