-- ==== Sys2Proof/Machine/Step.lean ====
section
/-!
DEFINITION. The step of the machine: the instance whose turn it is executes the command at the head of its
queue, atomically, and the turn passes on (60_exceptions.md R142; 00_scope.md R8).
-/

namespace Sys2Proof.Machine

/-- One step. With no whole command in its queue the instance is idle and holds its state (R110, R138;
log 5). A rejected header takes IllegalCommand (R126). -/
def step (s : State) : Host.Outcome State Fault Refusal :=
  match takeFrame s.cur.rx with
  | none => .next (passTurn s)
  | some (frame, rest) =>
    match decode frame.hdr frame.payload with
    | .error _ => .next (passTurn (rejectCommand (consume s rest)))
    | .ok i => thenPassTurn (exec i (consume s rest))

/-- `s` with the instruction whose bits are `w` at the head of the queue the next step takes its command
from. It stands for the host's sending it (log 9). -/
def State.withFetchWord (s : State) (nbits w : Nat) : State :=
  consume s (tableBytes nbits w ++ s.cur.rx)

end Sys2Proof.Machine
end

