-- ==== Sys2Proof/Machine/Operands.lean ====
section
/-!
DEFINITION. The forms of a `<bytes>` operand (30_encoding.md R65). The machine itself has one operand form, the
payload in wire order (R53); these forms are how an assembler program writes a payload.
-/

namespace Sys2Proof.Machine

/-- A `<bytes>` operand (R65). The form `""` is `text []`; `cat(x, y, z)` is `cat x (cat y z)`. -/
inductive BytesForm where
  /-- `"text"`: the ASCII codes of the characters. -/
  | text (chars : List Char)
  /-- `0x<hex>`: two digits a byte, byte 0 first. -/
  | hex (bytes : List Byte)
  /-- `rep(n, 0xbb)`: `n` copies of a byte. -/
  | rep (n : Nat) (b : Byte)
  /-- `seq(n)`: byte `i` is `i mod 256`. -/
  | seq (n : Nat)
  /-- `seq(n)[i..j)`: bytes `i` to `j - 1` of `seq(n)`. -/
  | slice (n i j : Nat)
  /-- `cat(x, y)`: concatenation. -/
  | cat (x y : BytesForm)
deriving DecidableEq, Repr

/-- `seq(n)`: the bytes `i mod 256` for `i` in `0..n-1` (R65). -/
def seqBytes (n : Nat) : List Byte := (List.range n).map fun i => BitVec.ofNat 8 i

/-- `s[i..j)`, empty when `j <= i` (00_scope.md R6). -/
def sliceBytes (s : List Byte) (i j : Nat) : List Byte := (s.take j).drop i

/-- The bytes an operand form stands for (R65). -/
def bytesOf : BytesForm → List Byte
  | .text chars => chars.map fun c => BitVec.ofNat 8 c.toNat
  | .hex bytes => bytes
  | .rep n b => List.replicate n b
  | .seq n => seqBytes n
  | .slice n i j => sliceBytes (seqBytes n) i j
  | .cat x y => bytesOf x ++ bytesOf y

end Sys2Proof.Machine
end

