-- ==== Sys2Proof/Machine/Assembler.lean ====
section
/-!
DEFINITION. The assembler syntax of a command program and its pseudo-instruction `HASH` (30_encoding.md R64 to
R66). What R64 and R65 leave open is log 10.
-/

namespace Sys2Proof.Machine

/-- One line of a program (R64, R66). -/
inductive AsmLine where
  | reset
  | write (bytes : BytesForm)
  | finalize
  | sum256 (bytes : BytesForm)
  /-- The pseudo-instruction `HASH <bytes>`. -/
  | hash (bytes : BytesForm)
deriving DecidableEq, Repr

/-- The commands a line stands for; `HASH b` is `RESET`, `WRITE b`, `FINALIZE` (R64, R66). -/
def expandLine : AsmLine → List Instr
  | .reset => [.reset]
  | .write b => [.write (bytesOf b)]
  | .finalize => [.finalize]
  | .sum256 b => [.sum256 (bytesOf b)]
  | .hash b => [.reset, .write (bytesOf b), .finalize]

/-- The commands of a program, in line order. -/
def expandProgram (lines : List AsmLine) : List Instr := (lines.map expandLine).flatten

/-- The wire bytes the assembler emits: header and payload of every command in order (R65). `none` if a payload
does not fit the length field (R53). -/
def assemble (lines : List AsmLine) : Option (List Byte) :=
  if (expandProgram lines).all (fun i => decide (WellFormed i)) = true then
    some ((expandProgram lines).map encode).flatten
  else none

/-- Drop blanks: spaces, tabs and carriage returns (DESIGN CHOICE, safe, log 10). -/
def skipBlanks : List Char → List Char
  | [] => []
  | c :: cs => if c = ' ' ∨ c = '\t' ∨ c = '\r' then skipBlanks cs else c :: cs

/-- The token `c`, after blanks. -/
def expectChar (c : Char) (cs : List Char) : Option (List Char) :=
  match skipBlanks cs with
  | [] => none
  | d :: ds => if d = c then some ds else none

/-- A number `n`, `i` or `j` of `rep`, `seq` or a slice, after blanks. DESIGN CHOICE (safe, log 10): R65 does not give the
notation; here it is decimal, leading zeros allowed, and a hex literal is refused. -/
def parseNumber (cs : List Char) : Option (Nat × List Char) :=
  let t := skipBlanks cs
  match t.takeWhile Char.isDigit with
  | [] => none
  | d :: ds => some ((d :: ds).foldl (fun n c => 10 * n + (c.toNat - 48)) 0, t.dropWhile Char.isDigit)

/-- The value of a hex digit, of either case (DESIGN CHOICE, safe, log 10). -/
def hexDigit (c : Char) : Option Nat :=
  if c.isDigit then some (c.toNat - 48)
  else if 97 ≤ c.toNat ∧ c.toNat ≤ 102 then some (c.toNat - 87)
  else if 65 ≤ c.toNat ∧ c.toNat ≤ 70 then some (c.toNat - 55)
  else none

/-- Hex digits two at a time; an odd number of digits is refused (R65). -/
def hexBytes : List Char → Option (List Byte)
  | [] => some []
  | [_] => none
  | a :: b :: cs =>
    match hexDigit a, hexDigit b, hexBytes cs with
    | some x, some y, some rest => some (BitVec.ofNat 8 (16 * x + y) :: rest)
    | _, _, _ => none

/-- The hex digits after `0x`. DESIGN CHOICE (safe, log 10): none at all is the empty sequence. -/
def parseHex (cs : List Char) : Option (List Byte × List Char) :=
  match hexBytes (cs.takeWhile fun c => (hexDigit c).isSome) with
  | none => none
  | some bs => some (bs, cs.dropWhile fun c => (hexDigit c).isSome)

/-- The characters up to the closing quote: ASCII, no escapes (R65). -/
def parseText (cs : List Char) : Option (BytesForm × List Char) :=
  let chars := cs.takeWhile fun c => c != '"'
  match cs.dropWhile fun c => c != '"' with
  | [] => none
  | _ :: rest => if chars.all (fun c => decide (c.toNat < 128)) = true then some (.text chars, rest) else none

/-- `(n, 0xbb)` after `rep`, the byte exactly two digits (R65). -/
def parseRep (cs : List Char) : Option (BytesForm × List Char) := do
  let c1 ← expectChar '(' cs
  let (n, c2) ← parseNumber c1
  let c3 ← expectChar ',' c2
  let c4 ← expectChar '0' c3
  match c4 with
  | 'x' :: c5 =>
    let (bs, c6) ← parseHex c5
    let c7 ← expectChar ')' c6
    match bs with
    | [b] => some (.rep n b, c7)
    | _ => none
  | _ => none

/-- `(n)` or `(n)[i..j)` after `seq`. DESIGN CHOICE (safe, log 10): a slice past
the end of the sequence is refused. -/
def parseSeq (cs : List Char) : Option (BytesForm × List Char) := do
  let c1 ← expectChar '(' cs
  let (n, c2) ← parseNumber c1
  let c3 ← expectChar ')' c2
  match c3 with
  | '[' :: c4 =>
    let (i, c5) ← parseNumber c4
    let c6 ← expectChar '.' c5
    match c6 with
    | '.' :: c7 =>
      let (j, c8) ← parseNumber c7
      let c9 ← expectChar ')' c8
      if j ≤ n then some (.slice n i j, c9) else none
    | _ => none
  | _ => some (.seq n, c3)

mutual

/-- A `<bytes>` operand, after blanks; `fuel` bounds the nesting and is the number of characters left. -/
def parseBytes : Nat → List Char → Option (BytesForm × List Char)
  | 0, _ => none
  | fuel + 1, cs =>
    match skipBlanks cs with
    | '"' :: t => parseText t
    | '0' :: 'x' :: t => (parseHex t).map fun p => (.hex p.1, p.2)
    | 'r' :: 'e' :: 'p' :: t => parseRep t
    | 's' :: 'e' :: 'q' :: t => parseSeq t
    | 'c' :: 'a' :: 't' :: t =>
      match expectChar '(' t with
      | none => none
      | some u => parseCat fuel u
    | _ => none

/-- The operands of a `cat`, up to its closing parenthesis. DESIGN CHOICE (safe, log 10): R65 writes `cat(x, y, ...)`
only; here one operand is enough, and `cat(x)` is `x`, while `cat()` is refused. -/
def parseCat : Nat → List Char → Option (BytesForm × List Char)
  | 0, _ => none
  | fuel + 1, cs =>
    match parseBytes fuel cs with
    | none => none
    | some (x, t) =>
      match skipBlanks t with
      | ')' :: u => some (x, u)
      | ',' :: u => (parseCat fuel u).map fun p => (.cat x p.1, p.2)
      | _ => none

end

/-- Nothing but blanks and a comment is left on the line (R64). -/
def lineEnds (cs : List Char) : Bool :=
  match skipBlanks cs with
  | [] => true
  | c :: _ => c == ';'

/-- A line without operand. -/
def parsePlain (line : AsmLine) (cs : List Char) : Option AsmLine := if lineEnds cs = true then some line else none

/-- A line with a `<bytes>` operand. -/
def parseWith (line : BytesForm → AsmLine) (cs : List Char) : Option AsmLine :=
  match parseBytes (cs.length + 1) cs with
  | none => none
  | some (b, rest) => if lineEnds rest = true then some (line b) else none

/-- One line: a mnemonic in any letter case, its operand if it takes one, and a comment (R64). `some none` for a
line that holds no command. DESIGN CHOICE (safe, log 10): the mnemonic is the longest run of letters and digits, and
no blank need stand between it and its operand, so `WRITE"lo"` is read and `WRITE0x6c` is not. -/
def parseLine (cs : List Char) : Option (Option AsmLine) :=
  if lineEnds cs = true then some none
  else
    let t := skipBlanks cs
    let rest := t.dropWhile Char.isAlphanum
    match (t.takeWhile Char.isAlphanum).map Char.toUpper with
    | ['R', 'E', 'S', 'E', 'T'] => (parsePlain .reset rest).map some
    | ['W', 'R', 'I', 'T', 'E'] => (parseWith .write rest).map some
    | ['F', 'I', 'N', 'A', 'L', 'I', 'Z', 'E'] => (parsePlain .finalize rest).map some
    | ['S', 'U', 'M', '2', '5', '6'] => (parseWith .sum256 rest).map some
    | ['H', 'A', 'S', 'H'] => (parseWith .hash rest).map some
    | _ => none

/-- The lines of a text; the first list is the line being read. -/
def splitLines : List Char → List (List Char)
  | [] => [[]]
  | c :: cs =>
    match splitLines cs with
    | [] => [[c]]
    | line :: lines => if c = '\n' then [] :: line :: lines else (c :: line) :: lines

/-- A program, one command per line (R64); `none` if a line is not of the syntax. -/
def parseProgram (source : List Char) : Option (List AsmLine) :=
  ((splitLines source).mapM parseLine).map fun lines => lines.filterMap id

end Sys2Proof.Machine
end

