-- ==== Sys2Proof/Machine/HostSide.lean ====
section
/-!
DEFINITION. The host's moves (10_state.md R27; 60_exceptions.md R142). They land between steps of the machine, never
inside a command. The host sees responses only, never `S`, `PB` or `PC` (10_state.md R30).
-/

namespace Sys2Proof.Machine

/-- `s` with instance `k`, counted from the one whose turn it is, replaced by its image under `f`. -/
def updateInstance (s : State) (k : Nat) (f : Instance → Instance) : State :=
  match k with
  | 0 => { s with cur := f s.cur }
  | j + 1 => { s with others := s.others.modify j f }

/-- The bytes are exactly one command: a header and its `LEN` payload bytes, well or badly formed (30_encoding.md R52). -/
def isOneCommand (wire : List Byte) : Bool :=
  match takeFrame wire with
  | some (_, []) => true
  | _ => false

/-- The host sends one command to instance `k`; which command channel leads to which instance is the
platform's `CMD_PORT`, here the index `k` (20_memory.md R45; 60_exceptions.md R140; log 11). `none`: the host
has no move, because there is no such instance, because the bytes are not one command, or because a
command to that instance is still unanswered (70_reset_and_hazards.md R152; log 7). The payload goes by value:
nothing of the host's storage is referred to afterwards (R150). -/
def hostIssue (k : Nat) (wire : List Byte) (s : State) : Option State :=
  match (instances s)[k]? with
  | none => none
  | some inst =>
    if inst.rx = [] ∧ isOneCommand wire = true then
      some (updateInstance s k fun i => { i with rx := wire })
    else none

/-- The host takes the responses of instance `k`, oldest first. A response taken is a value: no later command
changes it (70_reset_and_hazards.md R151). -/
def hostCollect (k : Nat) (s : State) : Option (List Response × State) :=
  match (instances s)[k]? with
  | none => none
  | some inst => some (inst.tx, updateInstance s k fun i => { i with tx := [] })

/-- A new instance is created, the source's `new()`: it starts in its power-on state, last in turn order, and no
other instance changes (70_reset_and_hazards.md R143, R147; 60_exceptions.md R141). -/
def createInstance (s : State) : State := { s with others := s.others ++ [Instance.fresh] }

end Sys2Proof.Machine
end

