-- ==== Sys2Proof/Safety.lean ====
section
/-!
DEFINITION. The terms the claims use: a safe step, a sequence of commands, the message of a stream
(43_streaming.md R104), the stream invariant (R108), and what of an engine can be observed (10_state.md R22).
-/

namespace Sys2Proof.Machine

/-- A state is safe to step from: the machine neither faults nor refuses. -/
def Safe (s : State) : Prop := ∃ t, step s = .next t

/-- `k` steps of the machine, as the host's `Core.run` makes them. -/
def runSteps : Nat → State → Host.Outcome State Fault Refusal
  | 0, s => .next s
  | k + 1, s =>
    match step s with
    | .next t => runSteps k t
    | .fault f => .fault f
    | .refused r => .refused r

/-- The commands of a list executed one after the other on the instance whose turn it is. -/
def runCommands : List Instr → State → Host.Outcome State Fault Refusal
  | [], s => .next s
  | i :: is, s =>
    match exec i s with
    | .next t => runCommands is t
    | .fault f => .fault f
    | .refused r => .refused r

/-- The message after a command (R104). -/
def messageAfter (M : List Byte) : Instr → List Byte
  | .reset => []
  | .write chunk => M ++ chunk
  | .finalize => M
  | .sum256 _ => M

/-- The message after a list of commands, from the empty message (R104). -/
def messageOf (is : List Instr) : List Byte := is.foldl messageAfter []

/-- The whole 136-byte blocks of a byte sequence (40_absorption.md R73). -/
def wholeBlocks (M : List Byte) : List Byte := M.take (136 * (M.length / 136))

/-- The bytes of a byte sequence after its last whole block (R73). -/
def tailBytes (M : List Byte) : List Byte := M.drop (136 * (M.length / 136))

/-- The stream invariant `Inv(S, PB, PC, M)` (43_streaming.md R108; 10_state.md R32). -/
def StreamInv (e : Engine) (M : List Byte) : Prop :=
  e.PC.val = M.length % 136 ∧ pendingBytes e = tailBytes M ∧ e.S = absorbAll (wholeBlocks M)

/-- Every instance of the system holds some message (R32). -/
def AllStreams (s : State) : Prop := ∀ inst ∈ instances s, ∃ M, StreamInv inst.engine M

/-- Two engines that agree on everything but the bytes of `PB` at and after `PC`, which are never
observable (R22). -/
def SameVisible (e e' : Engine) : Prop := e.S = e'.S ∧ e.PC = e'.PC ∧ pendingBytes e = pendingBytes e'

/-- What one instance makes of its own queue when it has its turn, computed from that instance alone. -/
def stepInstance (inst : Instance) : Instance :=
  match step { cur := inst, others := [] } with
  | .next t => t.cur
  | .fault _ => inst
  | .refused _ => inst

end Sys2Proof.Machine
end

