-- ==== Sys2Proof/Certificates/Slice0/Obligations.lean ====
section
/-!
DEFINITION. What is claimed of the machine. Each docstring names the rule of spec/ the statement formalises.
Rules the spec marks "[derived: …]" are its own inferences: a statement of one has basis 'derived'.
Every statement about the sponge holds for whatever permutation `keccakF` is; only `PermutationGridRoundTrip`,
`RhoPiMoveLanes` and `RoundStepsFollowReference` are about the definition of it that log 1 presumes.
-/

open Sys2Proof Sys2Proof.Machine

/-! ### The wire format -/

/-- R51 (30_encoding.md): the header's eight wire bytes, least significant first, and the fields they hold. -/
def Obligations.HeaderFieldsAreLittleEndian : Prop :=
  ∀ b0 b1 b2 b3 b4 b5 b6 b7 : Byte,
    (headerOfBytes b0 b1 b2 b3 b4 b5 b6 b7).opc = b0 ∧
    (headerOfBytes b0 b1 b2 b3 b4 b5 b6 b7).rsvd = b1 ∧
    (headerOfBytes b0 b1 b2 b3 b4 b5 b6 b7).len =
      b2.toNat + 2 ^ 8 * b3.toNat + 2 ^ 16 * b4.toNat + 2 ^ 24 * b5.toNat + 2 ^ 32 * b6.toNat +
        2 ^ 40 * b7.toNat ∧
    headerBytes (headerOfBytes b0 b1 b2 b3 b4 b5 b6 b7) = [b0, b1, b2, b3, b4, b5, b6, b7]

/-- R52, R63 (30_encoding.md): a command is its 8 header bytes and exactly `LEN` payload bytes, whatever its `OPC`
and `RSVD` say; the next command starts right after it. -/
def Obligations.FramingIsExact : Prop :=
  ∀ (wire rest : List Byte) (f : Frame),
    takeFrame wire = some (f, rest) ↔
      f.payload.length = f.hdr.len ∧ wire = headerBytes f.hdr ++ f.payload ++ rest

/-- R53, R54, R61 (30_encoding.md): decoding an encoded command gives it back, every operand byte in place. -/
def Obligations.DecodeEncodeRoundTrip : Prop :=
  ∀ (i : Instr) (rest : List Byte), WellFormed i →
    ∃ f, takeFrame (encode i ++ rest) = some (f, rest) ∧ decode f.hdr f.payload = .ok i

/-- R53, R54, R61 (30_encoding.md): every accepted header and payload is the encoding of the command read from it,
so each command has one wire form. -/
def Obligations.EncodeDecodeRoundTrip : Prop :=
  ∀ (h : Header) (P : List Byte) (i : Instr), P.length = h.len → decode h P = .ok i →
    WellFormed i ∧ encode i = headerBytes h ++ P

/-- R55, R56 (30_encoding.md): the exact headers of `RESET` and `FINALIZE`, without payload, and the rejection of a
nonzero `LEN` on either. -/
def Obligations.ResetAndFinalizeEncodings : Prop :=
  encodeHeader .reset = 0x0000000000000001 ∧ encode .reset = [0x01, 0, 0, 0, 0, 0, 0, 0] ∧
  encodeHeader .finalize = 0x0000000000000003 ∧ encode .finalize = [0x03, 0, 0, 0, 0, 0, 0, 0] ∧
  ∀ (h : Header) (P : List Byte), (h.opc = 0x01 ∨ h.opc = 0x03) → h.len ≠ 0 → ∃ r, decode h P = .error r

/-- R57, R58 (30_encoding.md): the headers of `WRITE` and `SUM256` carry any payload length, 0 included, with the
payload bytes after them; and the two wire examples of those rules. -/
def Obligations.WriteAndSum256Encodings : Prop :=
  (∀ bytes : List Byte, bytes.length < 2 ^ 48 →
    (encodeHeader (.write bytes)).extractLsb' 0 16 = 0x0002#16 ∧
    (encodeHeader (.write bytes)).len = bytes.length ∧
    encode (.write bytes) = headerBytes (encodeHeader (.write bytes)) ++ bytes ∧
    (encodeHeader (.sum256 bytes)).extractLsb' 0 16 = 0x0004#16 ∧
    (encodeHeader (.sum256 bytes)).len = bytes.length ∧
    encode (.sum256 bytes) = headerBytes (encodeHeader (.sum256 bytes)) ++ bytes) ∧
  encode (.write [0x68, 0x65, 0x6c, 0x6c, 0x6f]) =
    [0x02, 0, 0x05, 0, 0, 0, 0, 0, 0x68, 0x65, 0x6c, 0x6c, 0x6f] ∧
  encode (.sum256 []) = [0x04, 0, 0, 0, 0, 0, 0, 0]

/-- R61 (30_encoding.md): what the decoder accepts, and as what; it accepts nothing else. -/
def Obligations.DecoderAcceptsExactly : Prop :=
  ∀ (h : Header) (P : List Byte) (i : Instr),
    decode h P = .ok i ↔
      h.rsvd = 0x00 ∧
        ((h.opc = 0x01 ∧ h.len = 0 ∧ i = .reset) ∨ (h.opc = 0x02 ∧ i = .write P) ∨
          (h.opc = 0x03 ∧ h.len = 0 ∧ i = .finalize) ∨ (h.opc = 0x04 ∧ i = .sum256 P))

/-- Words written out from the encodings of R55 to R58 and the vectors V-DEC-1, 2, 4, 6, 9, 11 (95_test_vectors.md): they
decode to what they stand for, or are rejected. -/
def Obligations.SampleWordsDecode : Prop :=
  ((takeFrame [0x01, 0, 0, 0, 0, 0, 0, 0]).map fun p => decode p.1.hdr p.1.payload) = some (.ok .reset) ∧
  ((takeFrame [0x01, 0, 0x01, 0, 0, 0, 0, 0, 0xff]).map fun p => decode p.1.hdr p.1.payload) =
    some (.error .lengthNonzero) ∧
  ((takeFrame [0x02, 0, 0x05, 0, 0, 0, 0, 0, 0x68, 0x65, 0x6c, 0x6c, 0x6f]).map fun p =>
    decode p.1.hdr p.1.payload) = some (.ok (.write [0x68, 0x65, 0x6c, 0x6c, 0x6f])) ∧
  ((takeFrame [0x02, 0x01, 0x02, 0, 0, 0, 0, 0, 0x6c, 0x6f]).map fun p => decode p.1.hdr p.1.payload) =
    some (.error .reservedFieldNonzero) ∧
  ((takeFrame [0x03, 0, 0, 0, 0, 0, 0, 0]).map fun p => decode p.1.hdr p.1.payload) = some (.ok .finalize) ∧
  ((takeFrame [0x04, 0, 0, 0, 0, 0, 0, 0]).map fun p => decode p.1.hdr p.1.payload) = some (.ok (.sum256 [])) ∧
  ((takeFrame [0, 0, 0, 0, 0, 0, 0, 0]).map fun p => decode p.1.hdr p.1.payload) = some (.error .reservedOpcode)

/-! ### The step -/

/-- R142 (60_exceptions.md), R8 (00_scope.md): when the queue of the instance whose turn it is starts with the bytes of a
well-formed command, the step is that command's `exec` with its bytes taken off the queue, and then the turn
passes: the first instance becomes the last. The turn order is the model's choice (log 4). -/
def Obligations.StepRunsDecodedInstruction : Prop :=
  (∀ (s : State) (i : Instr) (rest : List Byte), WellFormed i → s.cur.rx = encode i ++ rest →
    step s = thenPassTurn (exec i (consume s rest))) ∧
  ∀ t : State, thenPassTurn (.next t) = .next (passTurn t) ∧ instances (passTurn t) = (instances t).rotate 1

/-- R59 (30_encoding.md), R126 (60_exceptions.md): a header that meets one of the three conditions is rejected by the
instance it was sent to. Its payload is discarded, the response is ILLEGAL_COMMAND, nothing else changes. -/
def Obligations.IllegalCommandEffect : Prop :=
  ∀ (inst : Instance) (f : Frame) (rest : List Byte), takeFrame inst.rx = some (f, rest) →
    (f.hdr.opc = 0x00 ∨ 0x05 ≤ f.hdr.opc.toNat) ∨ f.hdr.rsvd ≠ 0x00 ∨
      ((f.hdr.opc = 0x01 ∨ f.hdr.opc = 0x03) ∧ f.hdr.len ≠ 0) →
    stepInstance inst =
      { engine := inst.engine, rx := rest, tx := inst.tx ++ [.illegalCommand] } ∧
    responseBytes .illegalCommand = [0x01]

/-- R110 (43_streaming.md), R138 (60_exceptions.md): with no whole command in its queue the instance is idle and nothing
of it changes. That such a step answers a next state (log 5) and that the turn then passes (log 4) is the model's choice. -/
def Obligations.IdleInstanceHoldsItsState : Prop :=
  ∀ s : State, takeFrame s.cur.rx = none →
    step s = .next (passTurn s) ∧ (s.others = [] → step s = .next s)

/-- R125 (60_exceptions.md): no command raises an exception for any operand value; every command, in every state, completes
with status `0x00`. -/
def Obligations.EveryCommandCompletes : Prop :=
  ∀ (i : Instr) (s : State), ∃ t r,
    exec i s = .next t ∧ t.cur.tx = s.cur.tx ++ [r] ∧ (responseBytes r).head? = some 0x00

/-- No step of the machine stops, whatever bytes are in the queues. That a step with no whole command answers a next state
is the model's choice (log 5), and that nothing else stops is the model's reading (log 15) of R125 and R126
(60_exceptions.md) and of 93_implementation_defined.md section 1. -/
def Obligations.NoStepStops : Prop := ∀ s : State, Safe s

/-- R60 (30_encoding.md): every command gets exactly one response, after every earlier one and with the command's effect: one
status byte, and after it, for an accepted `FINALIZE` or `SUM256`, the 32 bytes of that command's digest in index
order. -/
def Obligations.OneResponsePerCommand : Prop :=
  ∀ (inst : Instance) (f : Frame) (rest : List Byte), takeFrame inst.rx = some (f, rest) →
    ∃ r, (stepInstance inst).rx = rest ∧ (stepInstance inst).tx = inst.tx ++ [r] ∧
      (∀ i, decode f.hdr f.payload = .ok i →
        exec i { cur := { inst with rx := rest }, others := [] } =
          .next { cur := stepInstance inst, others := [] }) ∧
      (∀ i, decode f.hdr f.payload = .ok i → i = .reset ∨ (∃ chunk, i = .write chunk) →
        responseBytes r = [0x00]) ∧
      (decode f.hdr f.payload = .ok .finalize →
        responseBytes r = 0x00 :: (finish inst.engine.S (inst.engine.PB.toList.take inst.engine.PC.val)).toList ∧
        (responseBytes r).length = 33) ∧
      (∀ data, decode f.hdr f.payload = .ok (.sum256 data) →
        responseBytes r = 0x00 :: (sum256Digest data).toList ∧ (responseBytes r).length = 33) ∧
      (∀ reason, decode f.hdr f.payload = .error reason → responseBytes r = [0x01])

/-- R128 (60_exceptions.md): after an IllegalCommand the instance goes on as if the rejected command had not been sent: after
any number of later moves it has the same engine, and has sent the same responses but for the rejection's own. -/
def Obligations.RejectedCommandLeavesNoTrace : Prop :=
  ∀ (inst : Instance) (f : Frame) (rest : List Byte) (reason : Illegal) (k : Nat),
    takeFrame inst.rx = some (f, rest) → decode f.hdr f.payload = .error reason →
    ∃ rs,
      (stepInstance^[k + 1] inst).engine = (stepInstance^[k] { inst with rx := rest }).engine ∧
      (stepInstance^[k + 1] inst).rx = (stepInstance^[k] { inst with rx := rest }).rx ∧
      (stepInstance^[k + 1] inst).tx = inst.tx ++ .illegalCommand :: rs ∧
      (stepInstance^[k] { inst with rx := rest }).tx = inst.tx ++ rs

/-- R149 (70_reset_and_hazards.md): responses come back in command order, one per command, accepted or not: the move that
takes the `j`-th command off the queue adds the `j`-th response. -/
def Obligations.ResponsesInCommandOrder : Prop :=
  ∀ (fs : List Frame) (rest : List Byte) (inst : Instance), (∀ f ∈ fs, f.payload.length = f.hdr.len) →
    inst.rx = (fs.map fun f => headerBytes f.hdr ++ f.payload).flatten ++ rest →
    ∃ rs, rs.length = fs.length ∧ (stepInstance^[fs.length] inst).tx = inst.tx ++ rs ∧
      (stepInstance^[fs.length] inst).rx = rest ∧
      ∀ (j : Nat) (f : Frame), fs[j]? = some f → ∃ r later,
        takeFrame (stepInstance^[j] inst).rx = some (f, later) ∧ rs[j]? = some r ∧
        (stepInstance^[j + 1] inst).tx = (stepInstance^[j] inst).tx ++ [r]

/-- R151 (70_reset_and_hazards.md): a returned digest is a value, and no later step changes it: a step only adds to the
responses of the instance that moves. Which one moves next is the model's choice (log 4). -/
def Obligations.SentResponsesNeverChange : Prop :=
  ∀ s : State, ∃ t, step s = .next (passTurn t) ∧ s.cur.tx <+: t.cur.tx ∧ t.others = s.others

/-- The word the host's table check places for the next step is the command the decoder reads from it. How a program
comes to run is log 9, and that the turn then passes is log 4. -/
def Obligations.TableWordIsNextCommand : Prop :=
  ∀ (nbits w : Nat) (i : Instr) (s : State), decodeTableWord nbits w = some i →
    step (s.withFetchWord nbits w) = thenPassTurn (exec i s)

/-! ### The primitives -/

/-- R67, R69, R70 (40_absorption.md): `absorbBlock` XORs the block into the first `len(blk)` bytes and leaves every other byte;
an empty block changes nothing, and the same block twice restores the state. -/
def Obligations.AbsorbBlockBytes : Prop :=
  (∀ (X : Sponge) (blk : List Byte) (i : Nat) (hi : i < 200),
    (absorbBlock X blk)[i] = if h : i < blk.length then X[i] ^^^ blk[i] else X[i]) ∧
  (∀ X : Sponge, absorbBlock X [] = X) ∧
  ∀ (X : Sponge) (blk : List Byte), absorbBlock (absorbBlock X blk) blk = X

/-- The spec's derived sentence "The byte view and the lane view of absorption agree" (20_memory.md section 1), with the
wide-word form of 40_absorption.md R67. -/
def Obligations.WideAbsorbEqualsByteAbsorb : Prop :=
  ∀ (X : Sponge) (blk : List Byte), absorbBlockWide X blk = absorbBlock X blk

/-- R33 (20_memory.md): lane `j` is the sum of its eight bytes, little-endian, and each byte is eight bits of it. -/
def Obligations.LanesAreLittleEndian : Prop :=
  ∀ (X : Sponge) (j : Fin 25),
    (lane X j).toNat =
      X[8 * j.val].toNat + 2 ^ 8 * X[8 * j.val + 1].toNat + 2 ^ 16 * X[8 * j.val + 2].toNat +
        2 ^ 24 * X[8 * j.val + 3].toNat + 2 ^ 32 * X[8 * j.val + 4].toNat + 2 ^ 40 * X[8 * j.val + 5].toNat +
        2 ^ 48 * X[8 * j.val + 6].toNat + 2 ^ 56 * X[8 * j.val + 7].toNat ∧
    ∀ k : Fin 8, X[8 * j.val + k.val] = (lane X j).extractLsb' (8 * k.val) 8

/-- 44_permutation.md section 2 (general knowledge, log 1): lane `A[x, y]` is lane `x + 5y` of the state, read and written
back, so the state's bytes and its 5 x 5 lanes determine each other. -/
def Obligations.PermutationGridRoundTrip : Prop :=
  (∀ (X : Sponge) (x y : Fin 5), (toGrid X)[x][y] = lane X ⟨x.val + 5 * y.val, by omega⟩) ∧
  (∀ (A : LaneGrid) (x y : Fin 5), lane (ofGrid A) ⟨x.val + 5 * y.val, by omega⟩ = A[x][y]) ∧
  (∀ X : Sponge, ofGrid (toGrid X) = X) ∧ ∀ A : LaneGrid, toGrid (ofGrid A) = A

/-- 44_permutation.md section 2 (general knowledge, log 1): steps ρ and π together move lane `A[x, y]`, rotated, to
`B[y, 2x + 3y]`; a rotation left by `r` moves bit `i` to bit `i + r` modulo 64; and the table of the offsets. -/
def Obligations.RhoPiMoveLanes : Prop :=
  (∀ (A : LaneGrid) (x y : Fin 5), (piStep (rho A))[y][2 * x + 3 * y] = rotl A[x][y] (rhoOffset x y)) ∧
  (∀ (v : Lane) (r i : Nat), i < 64 → (rotl v r).getLsbD ((i + r) % 64) = v.getLsbD i) ∧
  rhoOffset 0 0 = 0 ∧ rhoOffset 0 1 = 36 ∧ rhoOffset 0 2 = 3 ∧ rhoOffset 0 3 = 41 ∧ rhoOffset 0 4 = 18 ∧
  rhoOffset 1 0 = 1 ∧ rhoOffset 1 1 = 44 ∧ rhoOffset 1 2 = 10 ∧ rhoOffset 1 3 = 45 ∧ rhoOffset 1 4 = 2 ∧
  rhoOffset 2 0 = 62 ∧ rhoOffset 2 1 = 6 ∧ rhoOffset 2 2 = 43 ∧ rhoOffset 2 3 = 15 ∧ rhoOffset 2 4 = 61 ∧
  rhoOffset 3 0 = 28 ∧ rhoOffset 3 1 = 55 ∧ rhoOffset 3 2 = 25 ∧ rhoOffset 3 3 = 21 ∧ rhoOffset 3 4 = 56 ∧
  rhoOffset 4 0 = 27 ∧ rhoOffset 4 1 = 20 ∧ rhoOffset 4 2 = 39 ∧ rhoOffset 4 3 = 8 ∧ rhoOffset 4 4 = 14

/-- 44_permutation.md section 2 (general knowledge, log 1): steps θ, χ and ι lane by lane, the 24 rounds in
order, and the table of the round constants. -/
def Obligations.RoundStepsFollowReference : Prop :=
  (∀ (A : LaneGrid) (x y : Fin 5),
    (theta A)[x][y] =
      A[x][y] ^^^ ((A[x - 1][0] ^^^ A[x - 1][1] ^^^ A[x - 1][2] ^^^ A[x - 1][3] ^^^ A[x - 1][4]) ^^^
        rotl (A[x + 1][0] ^^^ A[x + 1][1] ^^^ A[x + 1][2] ^^^ A[x + 1][3] ^^^ A[x + 1][4]) 1)) ∧
  (∀ (B : LaneGrid) (x y : Fin 5), (chi B)[x][y] = B[x][y] ^^^ (~~~B[x + 1][y] &&& B[x + 2][y])) ∧
  (∀ (A : LaneGrid) (ir : Fin 24) (x y : Fin 5),
    (iota ir A)[x][y] = if x = 0 ∧ y = 0 then A[x][y] ^^^ roundConstant ir else A[x][y]) ∧
  (∀ (A : LaneGrid) (ir : Fin 24), keccakRound A ir = iota ir (chi (piStep (rho (theta A))))) ∧
  (∀ X : Sponge, keccakF X = ofGrid ((List.finRange 24).foldl keccakRound (toGrid X))) ∧
  roundConstant 0 = 0x0000000000000001 ∧ roundConstant 12 = 0x000000008000808B ∧
  roundConstant 1 = 0x0000000000008082 ∧ roundConstant 13 = 0x800000000000008B ∧
  roundConstant 2 = 0x800000000000808A ∧ roundConstant 14 = 0x8000000000008089 ∧
  roundConstant 3 = 0x8000000080008000 ∧ roundConstant 15 = 0x8000000000008003 ∧
  roundConstant 4 = 0x000000000000808B ∧ roundConstant 16 = 0x8000000000008002 ∧
  roundConstant 5 = 0x0000000080000001 ∧ roundConstant 17 = 0x8000000000000080 ∧
  roundConstant 6 = 0x8000000080008081 ∧ roundConstant 18 = 0x000000000000800A ∧
  roundConstant 7 = 0x8000000000008009 ∧ roundConstant 19 = 0x800000008000000A ∧
  roundConstant 8 = 0x000000000000008A ∧ roundConstant 20 = 0x8000000080008081 ∧
  roundConstant 9 = 0x0000000000000088 ∧ roundConstant 21 = 0x8000000000008080 ∧
  roundConstant 10 = 0x0000000080008009 ∧ roundConstant 22 = 0x0000000080000001 ∧
  roundConstant 11 = 0x000000008000000A ∧ roundConstant 23 = 0x8000000080008008

/-- R75, R76 (41_padding.md): padding XORs `0x01` at byte `t` and `0x80` at byte 135 and changes nothing else; for `t = 135`
both land on byte 135, whose old value is XORed with `0x81`. -/
def Obligations.PaddingXors : Prop :=
  (∀ (X : Sponge) (t : Nat), t ≤ 135 → ∀ (i : Nat) (hi : i < 200),
    (pad X t)[i] = X[i] ^^^ (if i = t then 0x01#8 else 0) ^^^ (if i = 135 then 0x80#8 else 0)) ∧
  ∀ X : Sponge, (pad X 135)[135] = X[135] ^^^ 0x81#8

/-- R78, R79 (41_padding.md): `finish` absorbs the tail, pads at its end, permutes once, and digest byte `i` is state
byte `i`. -/
def Obligations.FinishPadsPermutesSqueezes : Prop :=
  ∀ (X : Sponge) (tail : List Byte) (i : Nat) (hi : i < 32),
    (finish X tail)[i] = (keccakF (pad (absorbBlock X tail) tail.length))[i]

/-- R71, R72 (40_absorption.md): `absorbPermute` absorbs a block and permutes once; `AbsorbAll` starts from the zero state and
does so for one 136-byte block after the other. -/
def Obligations.AbsorbAllOneBlockAtATime : Prop :=
  (∀ (X : Sponge) (blk : List Byte), absorbPermute X blk = keccakF (absorbBlock X blk)) ∧
  absorbAll [] = Vector.replicate 200 0 ∧
  ∀ B blk : List Byte, B.length % 136 = 0 → blk.length = 136 →
    absorbAll (B ++ blk) = absorbPermute (absorbAll B) blk

/-- The spec's derived sentence "No rule XORs an input byte or a padding byte into the capacity region" (10_state.md
section 2). -/
def Obligations.CapacityIsNeverXored : Prop :=
  ∀ (X : Sponge) (blk : List Byte) (t i : Nat) (hi : i < 200), blk.length ≤ 136 → t ≤ 135 → 136 ≤ i →
    (absorbBlock X blk)[i] = X[i] ∧ (pad X t)[i] = X[i]

/-! ### The commands -/

/-- R91 (43_streaming.md): `RESET` completes in every state; it writes `S` and `PC`, not `PB`, answers status `0x00`, and
changes nothing else. -/
def Obligations.ResetResult : Prop :=
  ∀ s : State, exec .reset s = .next { s with cur := { s.cur with
    engine := { S := Vector.replicate 200 0, PB := s.cur.engine.PB, PC := 0 },
    tx := s.cur.tx ++ [.ok] } } ∧
    responseBytes .ok = [0x00] ∧ encode .reset = [0x01, 0, 0, 0, 0, 0, 0, 0]

/-- 43_streaming.md section 3, `WRITE`, in closed form: it completes in every state and for every chunk. The pending bytes and the chunk, in
order, are absorbed in whole 136-byte blocks; what is left is pending; the response is status `0x00`. Of `PB`: if no
block is completed, only the chunk's bytes after the pending ones are written; otherwise the new tail stands in front,
the bytes of a top-up stay behind it, and every other byte is unchanged. Nothing else changes. What the bytes of `PB` at
and after `PC` are follows the buffering strategy that the model chose (log 8). -/
def Obligations.WriteResult : Prop :=
  ∀ (chunk : List Byte) (s : State), ∃ e : Engine,
    exec (.write chunk) s = .next { s with cur := { s.cur with engine := e, tx := s.cur.tx ++ [.ok] } } ∧
    e.S = absorbFrom s.cur.engine.S (wholeBlocks (pendingBytes s.cur.engine ++ chunk)) ∧
    e.PC.val = (s.cur.engine.PC.val + chunk.length) % 136 ∧
    pendingBytes e = tailBytes (pendingBytes s.cur.engine ++ chunk) ∧
    (∀ (i : Nat) (hi : i < 136), e.PB[i] =
      if s.cur.engine.PC.val + chunk.length < 136 then
        if s.cur.engine.PC.val ≤ i ∧ i - s.cur.engine.PC.val < chunk.length then
          chunk.getD (i - s.cur.engine.PC.val) 0
        else s.cur.engine.PB[i]
      else if i < (s.cur.engine.PC.val + chunk.length) % 136 then
        (tailBytes (pendingBytes s.cur.engine ++ chunk)).getD i 0
      else if 0 < s.cur.engine.PC.val ∧ s.cur.engine.PC.val ≤ i then chunk.getD (i - s.cur.engine.PC.val) 0
      else s.cur.engine.PB[i]) ∧
    responseBytes .ok = [0x00] ∧
    (chunk.length < 2 ^ 48 → (encodeHeader (.write chunk)).opc = 0x02 ∧
      (encodeHeader (.write chunk)).rsvd = 0x00 ∧ (encodeHeader (.write chunk)).len = chunk.length)

/-- The spec's derived sentence "`WRITE ""` (`LEN = 0`) changes no state and answers status `0x00`" (43_streaming.md
section 3). -/
def Obligations.WriteEmptyChunkChangesNothing : Prop :=
  ∀ s : State, exec (.write []) s = .next { s with cur := { s.cur with tx := s.cur.tx ++ [.ok] } }

/-- R99 (43_streaming.md): `FINALIZE` completes in every state; its digest is `finish` of `S` and the pending bytes; it
writes none of `S`, `PB`, `PC`, and changes nothing but the responses sent. -/
def Obligations.FinalizeResult : Prop :=
  ∀ s : State, ∃ digest : Digest,
    digest = finish s.cur.engine.S (s.cur.engine.PB.toList.take s.cur.engine.PC.val) ∧
    exec .finalize s = .next { s with cur := { s.cur with tx := s.cur.tx ++ [.okDigest digest] } } ∧
    responseBytes (.okDigest digest) = 0x00 :: digest.toList ∧
    encode .finalize = [0x03, 0, 0, 0, 0, 0, 0, 0]

/-- R84, R86 (42_oneshot.md): `SUM256` completes in every state and for every data. Its digest is that of the loop, the one
function that absorbs and permutes a block while 136 bytes are left and then finishes, started from 200 zero bytes; it
touches no state. -/
def Obligations.Sum256RunsTheAbsorbLoop : Prop :=
  ∃ loop : Sponge → List Byte → Digest,
    (∀ (T : Sponge) (rest : List Byte), 136 ≤ rest.length →
      loop T rest = loop (absorbPermute T (rest.take 136)) (rest.drop 136)) ∧
    (∀ (T : Sponge) (rest : List Byte), rest.length < 136 → loop T rest = finish T rest) ∧
    (∀ (data : List Byte) (s : State), exec (.sum256 data) s = .next { s with cur := { s.cur with
      tx := s.cur.tx ++ [.okDigest (loop (Vector.replicate 200 0) data)] } }) ∧
    (∀ digest : Digest, responseBytes (.okDigest digest) = 0x00 :: digest.toList) ∧
    ∀ data : List Byte, data.length < 2 ^ 48 → (encodeHeader (.sum256 data)).opc = 0x04 ∧
      (encodeHeader (.sum256 data)).rsvd = 0x00 ∧ (encodeHeader (.sum256 data)).len = data.length

/-- The closed form the spec derives in 42_oneshot.md: `SUM256` completes in every state and for every data; its digest is
`finish` of its whole blocks absorbed from the zero state and its tail; it touches no state. -/
def Obligations.Sum256Result : Prop :=
  ∀ (data : List Byte) (s : State), exec (.sum256 data) s = .next { s with cur := { s.cur with
    tx := s.cur.tx ++ [.okDigest (finish (absorbAll (wholeBlocks data)) (tailBytes data))] } }

/-- The spec's derived permutation counts (70_reset_and_hazards.md section 4). -/
def Obligations.PermutationCounts : Prop :=
  ∀ (e : Engine) (bytes : List Byte),
    permutations .reset e = 0 ∧ permutations (.write bytes) e = (e.PC.val + bytes.length) / 136 ∧
    permutations .finalize e = 1 ∧ permutations (.sum256 bytes) e = bytes.length / 136 + 1

/-- R102 (43_streaming.md): the rows of the phase table, and that the phase machine, entered at TOPUP if bytes are pending and
at FAST otherwise, comes back to IDLE with the chunk used up, where the atomic `WRITE` leaves exactly the state it
has; and every command is one step of the machine. -/
def Obligations.WriteRefinesPhaseMachine : Prop :=
  (∀ e : Engine, firstPhase e = if 0 < e.PC.val then .topUp else .fast) ∧
  (∀ w : WriteWork, 0 < w.pc → w.pc ≤ 136 →
    phaseMove (.topUp, w) =
      (if w.pc + min (136 - w.pc) w.rest.length = 136 then .absorbPB else .tail,
        { w with PB := putPending w.PB w.pc (w.rest.take (min (136 - w.pc) w.rest.length)),
                 pc := w.pc + min (136 - w.pc) w.rest.length,
                 rest := w.rest.drop (min (136 - w.pc) w.rest.length) })) ∧
  (∀ w : WriteWork, w.pc = 136 → phaseMove (.absorbPB, w) =
    (.fast, { w with S := absorbPermute w.S w.PB.toList, pc := 0, perms := w.perms + 1 })) ∧
  (∀ w : WriteWork, phaseMove (.fast, w) =
    if 136 ≤ w.rest.length then
      (.fast, { w with S := absorbPermute w.S (w.rest.take 136), rest := w.rest.drop 136, perms := w.perms + 1 })
    else (.tail, w)) ∧
  (∀ w : WriteWork, phaseMove (.tail, w) =
    (.idle, { w with PB := putPending w.PB w.pc w.rest, pc := w.pc + w.rest.length, rest := [] })) ∧
  (∀ (chunk : List Byte) (s : State), ∃ k w t,
    phaseMove^[k] (firstPhase s.cur.engine, writeStart s.cur.engine chunk) = (.idle, w) ∧
    w.rest = [] ∧ exec (.write chunk) s = .next t ∧
    t.cur.engine.S = w.S ∧ t.cur.engine.PB = w.PB ∧ t.cur.engine.PC.val = w.pc) ∧
  ∀ (i : Instr) (s : State), ∃ t, exec i s = .next t

/-! ### The stream contract -/

/-- The stream invariant the spec derives (43_streaming.md section 6), kept by every command: `RESET` empties the message,
`WRITE` appends its chunk, `FINALIZE` and `SUM256` leave it. -/
def Obligations.CommandKeepsStreamInv : Prop :=
  ∀ (i : Instr) (s : State) (M : List Byte), StreamInv s.cur.engine M →
    ∃ t, exec i s = .next t ∧ StreamInv t.cur.engine (messageAfter M i)

/-- The spec's derived sentence "Between commands, the state of an instance is a function of the message `M` alone"
(10_state.md section 7), of every instance, kept by every step whatever bytes are in the queues. -/
def Obligations.StepKeepsAllStreams : Prop :=
  ∀ s t : State, AllStreams s → step s = .next t → AllStreams t

/-- 43_streaming.md section 6: power-on establishes the stream invariant in every instance, with the empty message. -/
def Obligations.PowerOnHoldsEmptyMessage : Prop :=
  (∀ (n : Nat) (inst : Instance), inst ∈ instances (State.powerOn n) → StreamInv inst.engine []) ∧
  AllStreams State.reset

/-- R105 (43_streaming.md): whatever commands an instance has executed since `S` was zero and `PC` 0, whatever `PB` held,
`FINALIZE` answers exactly what `SUM256` of its message answers. -/
def Obligations.FinalizeEqualsSum256OfMessage : Prop :=
  ∀ (cmds : List Instr) (s : State), s.cur.engine.S = Vector.replicate 200 0 → s.cur.engine.PC = 0 → ∃ t,
    runCommands cmds s = .next t ∧ exec .finalize t = exec (.sum256 (messageOf cmds)) t

/-- The closed form the spec derives for the digest of `FINALIZE` (43_streaming.md section 6, 42_oneshot.md): that of the
message's whole blocks and tail. -/
def Obligations.FinalizeDigestOfMessage : Prop :=
  ∀ (cmds : List Instr) (s : State), s.cur.engine.S = Vector.replicate 200 0 → s.cur.engine.PC = 0 → ∃ t,
    runCommands cmds s = .next t ∧
    exec .finalize t = .next { t with cur := { t.cur with tx := t.cur.tx ++
      [.okDigest (finish (absorbAll (wholeBlocks (messageOf cmds))) (tailBytes (messageOf cmds)))] } }

/-- The chunk invariance the spec derives (43_streaming.md section 6): how the bytes written are split into chunks, empty
chunks included, changes neither the observable state nor the digest; from any state whatever. -/
def Obligations.ChunkInvariance : Prop :=
  ∀ (s : State) (cs ds : List (List Byte)), cs.flatten = ds.flatten → ∃ t u digest,
    runCommands (cs.map Instr.write) s = .next t ∧ runCommands (ds.map Instr.write) s = .next u ∧
    SameVisible t.cur.engine u.cur.engine ∧
    exec .finalize t = .next { t with cur := { t.cur with tx := t.cur.tx ++ [.okDigest digest] } } ∧
    exec .finalize u = .next { u with cur := { u.cur with tx := u.cur.tx ++ [.okDigest digest] } }

/-- The spec's derived sentence "`WRITE a; FINALIZE; WRITE b; FINALIZE` returns `SUM256(a)` and then `SUM256(a ++ b)`"
(43_streaming.md section 4). -/
def Obligations.WriteAfterFinalizeContinues : Prop :=
  ∀ (a b : List Byte) (s : State), s.cur.engine.S = Vector.replicate 200 0 → s.cur.engine.PC = 0 → ∃ t,
    runCommands [.write a, .finalize, .write b, .finalize] s = .next t ∧
    t.cur.tx = s.cur.tx ++ [.ok, .okDigest (sum256Digest a), .ok, .okDigest (sum256Digest (a ++ b))]

/-- The spec's derived sentence on two `FINALIZE` commands with no `WRITE` or `RESET` between them (43_streaming.md section 4):
the same digest, a `SUM256` between them or not, and the engine as before. -/
def Obligations.FinalizeIsRepeatable : Prop :=
  (∀ s : State, ∃ t digest, runCommands [.finalize, .finalize] s = .next t ∧ t.cur.engine = s.cur.engine ∧
    t.cur.tx = s.cur.tx ++ [.okDigest digest, .okDigest digest]) ∧
  ∀ (data : List Byte) (s : State), ∃ t digest,
    runCommands [.finalize, .sum256 data, .finalize] s = .next t ∧ t.cur.engine = s.cur.engine ∧
    t.cur.tx = s.cur.tx ++ [.okDigest digest, .okDigest (sum256Digest data), .okDigest digest]

/-- The spec's derived sentence "`RESET` during a stream discards the message so far" (43_streaming.md section 6), from any
state. -/
def Obligations.ResetDiscardsMessage : Prop :=
  ∀ (a b : List Byte) (s : State), ∃ t,
    runCommands [.write a, .reset, .write b, .finalize] s = .next t ∧
    t.cur.tx = s.cur.tx ++ [.ok, .ok, .ok, .okDigest (sum256Digest b)]

/-- The spec's derived sentence that after `RESET` an instance cannot be told apart from a freshly created one by any later
sequence of commands and responses (43_streaming.md section 2), whatever the `PB` of that one holds (log 2). -/
def Obligations.ResetActsLikeFresh : Prop :=
  ∀ (cmds : List Instr) (s : State) (new : Engine), new.S = Vector.replicate 200 0 → new.PC = 0 → ∃ r t u,
    exec .reset s = .next r ∧ runCommands cmds r = .next t ∧
    runCommands cmds { r with cur := { r.cur with engine := new } } = .next u ∧
    t.cur.tx = u.cur.tx ∧ SameVisible t.cur.engine u.cur.engine

/-- The spec's derived sentence that the bytes of `PB` at and after `PC` are "never observable in any response" (10_state.md
section 3): two engines that differ only there answer every sequence of commands alike. -/
def Obligations.PendingTailUnobservable : Prop :=
  ∀ (cmds : List Instr) (s s' : State), SameVisible s.cur.engine s'.cur.engine → s.cur.tx = s'.cur.tx →
    ∃ t t', runCommands cmds s = .next t ∧ runCommands cmds s' = .next t' ∧
      t.cur.tx = t'.cur.tx ∧ SameVisible t.cur.engine t'.cur.engine

/-! ### The system: instances, host, reset -/

/-- R47 (20_memory.md): independent instances share no state. A command reads and writes only the instance that executes it,
whatever the others are, and any interleaving of the instances' moves, given as the list of who moves, leaves every
instance as its own number of moves alone would. -/
def Obligations.AnyInterleavingGivesSameResults : Prop :=
  (∀ (i : Instr) (cur : Instance), ∃ cur', ∀ others : List Instance,
    exec i { cur := cur, others := others } = .next { cur := cur', others := others }) ∧
  ∀ (order : List Nat) (s : State),
    instances (order.foldl (fun t k => updateInstance t k stepInstance) s) =
      (instances s).mapIdx fun k inst => stepInstance^[order.count k] inst

/-- 20_memory.md section 5: a step reads and writes the instance whose turn it is and no other, and moves of different
instances commute. That the turn then passes is the model's choice (log 4). -/
def Obligations.InstancesAreIndependent : Prop :=
  (∀ s : State, step s = .next (passTurn (updateInstance s 0 stepInstance))) ∧
  ∀ (s : State) (j k : Nat), j ≠ k →
    updateInstance (updateInstance s j stepInstance) k stepInstance =
      updateInstance (updateInstance s k stepInstance) j stepInstance

/-- 20_memory.md section 5, 60_exceptions.md section 4: run a system of any number of instances for `k` rounds of turns, and
every instance has made `k` moves of its own, as if it were alone. The turn order is the model's choice (log 4). -/
def Obligations.RoundsRunEachInstanceAlone : Prop :=
  ∀ (k : Nat) (s : State), runSteps (k * (instances s).length) s =
    .next { cur := stepInstance^[k] s.cur, others := s.others.map (stepInstance^[k]) }

/-- R20, R26 (10_state.md): after power-on, of a system of any number of instances, and after `RESET`, `S` is all zero and `PC`
is 0. No command has been issued or answered. What `PB` holds is not claimed (log 2). -/
def Obligations.ResetValues : Prop :=
  (∀ (n : Nat) (inst : Instance), inst ∈ instances (State.powerOn n) →
    (∀ (i : Nat) (hi : i < 200), inst.engine.S[i] = 0x00) ∧ inst.engine.PC = 0 ∧ inst.rx = [] ∧ inst.tx = []) ∧
  ∀ s : State, ∃ t, exec .reset s = .next t ∧
    (∀ (i : Nat) (hi : i < 200), t.cur.engine.S[i] = 0x00) ∧ t.cur.engine.PC = 0

/-- 70_reset_and_hazards.md section 3, 60_exceptions.md section 4: the host has no move to an instance whose previous command is unanswered; where it has one,
it sends one command to one instance and changes nothing else. That the host keeps its duty by having no move then
(log 7) and that the instance is named by its index (log 11) are the model's choices. -/
def Obligations.HostWaitsForAnswer : Prop :=
  (∀ (k : Nat) (wire : List Byte) (s : State) (inst : Instance), (instances s)[k]? = some inst →
    inst.rx ≠ [] → hostIssue k wire s = none) ∧
  ∀ (k : Nat) (wire : List Byte) (s t : State), hostIssue k wire s = some t →
    isOneCommand wire = true ∧ instances t = (instances s).modify k fun i => { i with rx := wire }

/-- 60_exceptions.md section 4, 20_memory.md section 5: the host can issue any well-formed command to any idle instance, which
changes the queue of that instance and nothing else; at that instance's next turn, which is the step after `k` others,
the command is executed on the state the instance was in. The turn order (log 4), the one command in flight (log 7) and
the index `k` of the instance (log 11) are the model's choices. -/
def Obligations.IssuedCommandIsExecuted : Prop :=
  ∀ (k : Nat) (i : Instr) (s : State) (inst : Instance), WellFormed i → (instances s)[k]? = some inst →
    inst.rx = [] → ∃ t u,
      hostIssue k (encode i) s = some t ∧
      instances t = (instances s).set k { inst with rx := encode i } ∧
      runSteps k t = .next u ∧ u.cur = { inst with rx := encode i } ∧
      step u = thenPassTurn (exec i { u with cur := inst })

/-- R147 (70_reset_and_hazards.md), R141 (60_exceptions.md): creating an instance adds one in its power-on state and changes no
other. Its place in the turn order (log 4) and the zero bytes in its `PB` (log 2) are the model's choices. -/
def Obligations.CreatedInstanceIsFresh : Prop :=
  ∀ s : State, instances (createInstance s) = instances s ++ [Instance.fresh]

/-! ### The assembler -/

/-- The `<bytes>` operand forms of 30_encoding.md section 7, with two of its examples. That hex digits are read in both cases,
and that no digit at all is the empty sequence, is the model's choice (log 10). -/
def Obligations.ByteForms : Prop :=
  (∀ (n : Nat) (b : Byte), (bytesOf (.rep n b)).length = n ∧ ∀ x ∈ bytesOf (.rep n b), x = b) ∧
  (∀ n : Nat, (bytesOf (.seq n)).length = n ∧
    ∀ i : Nat, i < n → ((bytesOf (.seq n)).getD i 0).toNat = i % 256) ∧
  (∀ n i j : Nat, j ≤ n → (bytesOf (.slice n i j)).length = j - i ∧
    ∀ k : Nat, k < j - i → ((bytesOf (.slice n i j)).getD k 0).toNat = (i + k) % 256) ∧
  (∀ x y : BytesForm, bytesOf (.cat x y) = bytesOf x ++ bytesOf y) ∧
  (∀ chars : List Char, (∀ c ∈ chars, c.toNat < 128) →
    (bytesOf (.text chars)).map BitVec.toNat = chars.map Char.toNat) ∧
  (∀ bytes : List Byte, bytesOf (.hex bytes) = bytes) ∧
  (∀ digits : List Char, digits.length % 2 = 1 → hexBytes digits = none) ∧
  (∀ digits : List Char, digits.length % 2 = 0 → (∀ c ∈ digits, (hexDigit c).isSome = true) →
    (hexBytes digits).isSome = true) ∧
  (∀ (digits : List Char) (bytes : List Byte), hexBytes digits = some bytes →
    digits.length = 2 * bytes.length ∧
    ∀ k : Nat, k < bytes.length → ∃ hi lo : Nat, hi < 16 ∧ lo < 16 ∧
      (digits[2 * k]?.bind hexDigit) = some hi ∧ (digits[2 * k + 1]?.bind hexDigit) = some lo ∧
      (bytes.getD k 0).toNat = 16 * hi + lo) ∧
  ("0123456789abcdefABCDEF".toList.map hexDigit) =
    (List.range 16 ++ [10, 11, 12, 13, 14, 15]).map some ∧
  bytesOf (.text ['h', 'e', 'l', 'l', 'o']) = [0x68, 0x65, 0x6c, 0x6c, 0x6f] ∧
  bytesOf (.slice 300 256 258) = [0x00, 0x01]

/-- R66 (30_encoding.md): `HASH` expands to `RESET`, `WRITE`, `FINALIZE`; from any state its digest is that of `SUM256`, and
the instance holds the message afterwards. -/
def Obligations.HashExpandsAndDigests : Prop :=
  ∀ (b : BytesForm) (s : State),
    expandLine (.hash b) = [.reset, .write (bytesOf b), .finalize] ∧
    ∃ t, runCommands (expandLine (.hash b)) s = .next t ∧ StreamInv t.cur.engine (bytesOf b) ∧
      t.cur.tx = s.cur.tx ++ [.ok, .ok, .okDigest (sum256Digest (bytesOf b))]

/-- 30_encoding.md sections 2 to 7 together: an instance fed the wire bytes the assembler emits for a program executes the
program's commands in line order and nothing else, one a turn, whatever other instances there are; a machine of one
instance does so in as many steps. -/
def Obligations.WireProgramRunsItsCommands : Prop :=
  ∀ (lines : List AsmLine) (wire : List Byte) (s : State), assemble lines = some wire → s.cur.rx = wire →
    ∃ t, runCommands (expandProgram lines) (consume s []) = .next t ∧ t.others = s.others ∧
      t.cur = stepInstance^[(expandProgram lines).length] s.cur ∧
      (s.others = [] → runSteps (expandProgram lines).length s = .next t)
end

