-- ==== Sys2Proof/Laws/State.lean ====
section
/-!
SUPPORT. One lemma per field per update of the state, and the two ways a turn passes.
-/

namespace Sys2Proof.Machine

section complete
variable (s : State) (e : Engine) (r : Response)
@[simp] theorem complete_engine : (complete s e r).cur.engine = e := rfl
@[simp] theorem complete_rx : (complete s e r).cur.rx = s.cur.rx := rfl
@[simp] theorem complete_tx : (complete s e r).cur.tx = s.cur.tx ++ [r] := rfl
@[simp] theorem complete_others : (complete s e r).others = s.others := rfl
end complete

section rejectCommand
variable (s : State)
@[simp] theorem rejectCommand_engine : (rejectCommand s).cur.engine = s.cur.engine := rfl
@[simp] theorem rejectCommand_rx : (rejectCommand s).cur.rx = s.cur.rx := rfl
@[simp] theorem rejectCommand_tx : (rejectCommand s).cur.tx = s.cur.tx ++ [.illegalCommand] := rfl
@[simp] theorem rejectCommand_others : (rejectCommand s).others = s.others := rfl
end rejectCommand

section consume
variable (s : State) (rest rest' : List Byte)
@[simp] theorem consume_engine : (consume s rest).cur.engine = s.cur.engine := rfl
@[simp] theorem consume_rx : (consume s rest).cur.rx = rest := rfl
@[simp] theorem consume_tx : (consume s rest).cur.tx = s.cur.tx := rfl
@[simp] theorem consume_others : (consume s rest).others = s.others := rfl
@[simp] theorem consume_consume : consume (consume s rest) rest' = consume s rest' := rfl
@[simp] theorem consume_self : consume s s.cur.rx = s := rfl
@[simp] theorem consume_complete (e : Engine) (r : Response) :
    consume (complete s e r) rest = complete (consume s rest) e r := rfl
end consume

section resetEngine
variable (e : Engine)
@[simp] theorem resetEngine_S : (resetEngine e).S = zero200 := rfl
@[simp] theorem resetEngine_PB : (resetEngine e).PB = e.PB := rfl
@[simp] theorem resetEngine_PC : (resetEngine e).PC = 0 := rfl
end resetEngine

section writeEngine
variable (e : Engine) (chunk : List Byte)
@[simp] theorem writeEngine_S : (writeEngine e chunk).S = (writeWork e chunk).S := rfl
@[simp] theorem writeEngine_PB : (writeEngine e chunk).PB = (writeWork e chunk).PB := rfl
@[simp] theorem writeEngine_PC_val : (writeEngine e chunk).PC.val = (writeWork e chunk).pc := rfl
end writeEngine

@[simp] theorem fresh_S : Engine.fresh.S = zero200 := rfl
@[simp] theorem fresh_PC : Engine.fresh.PC = 0 := rfl

/-- With one instance the turn stays. -/
theorem passTurn_alone {s : State} (h : s.others = []) : passTurn s = s := by
  simp only [passTurn, h]

theorem passTurn_cons {s : State} {next : Instance} {later : List Instance} (h : s.others = next :: later) :
    passTurn s = { cur := next, others := later ++ [s.cur] } := by
  simp only [passTurn, h]

/-- Passing the turn moves the first instance to the end and changes no instance. -/
theorem instances_passTurn (s : State) : instances (passTurn s) = s.others ++ [s.cur] := by
  cases h : s.others with
  | nil => simp [passTurn_alone h, instances, h]
  | cons next later => simp [passTurn_cons h, instances]

theorem mem_instances_passTurn (s : State) (inst : Instance) :
    inst ∈ instances (passTurn s) ↔ inst ∈ instances s := by
  rw [instances_passTurn]
  simp [instances, or_comm]

@[simp] theorem thenPassTurn_next (t : State) : thenPassTurn (.next t) = .next (passTurn t) := rfl

end Sys2Proof.Machine
end

