-- ==== Sys2Proof/Laws/Bytes.lean ====
section
/-!
SUPPORT. What each byte-array operation does to each byte.
-/

namespace Sys2Proof.Machine

/-- The number that eight bytes joined most significant first stand for. -/
theorem joined_toNat (b7 b6 b5 b4 b3 b2 b1 b0 : Byte) :
    (b7 ++ b6 ++ b5 ++ b4 ++ b3 ++ b2 ++ b1 ++ b0).toNat =
      b0.toNat + 2 ^ 8 * b1.toNat + 2 ^ 16 * b2.toNat + 2 ^ 24 * b3.toNat + 2 ^ 32 * b4.toNat +
        2 ^ 40 * b5.toNat + 2 ^ 48 * b6.toNat + 2 ^ 56 * b7.toNat := by
  simp only [BitVec.toNat_append, Nat.shiftLeft_eq]
  simp only [mul_comm _ (2 ^ _), ← Nat.two_pow_add_eq_or_of_lt (BitVec.isLt _)]
  ring

/-- Byte `k` of eight bytes joined most significant first. -/
theorem joined_byte (b7 b6 b5 b4 b3 b2 b1 b0 : Byte) (k : Nat) (hk : k < 8) :
    (b7 ++ b6 ++ b5 ++ b4 ++ b3 ++ b2 ++ b1 ++ b0).extractLsb' (8 * k) 8 =
      [b0, b1, b2, b3, b4, b5, b6, b7].getD k 0 := by
  have := b0.isLt; have := b1.isLt; have := b2.isLt; have := b3.isLt
  have := b4.isLt; have := b5.isLt; have := b6.isLt; have := b7.isLt
  apply BitVec.eq_of_toNat_eq
  rw [BitVec.extractLsb'_toNat, Nat.shiftRight_eq_div_pow, joined_toNat]
  interval_cases k <;> simp <;> omega

/-- Bytes of an exclusive or. -/
theorem extract_xor (a b : Lane) (k : Nat) :
    (a ^^^ b).extractLsb' k 8 = a.extractLsb' k 8 ^^^ b.extractLsb' k 8 := by
  apply BitVec.eq_of_getLsbD_eq
  intro i hi
  simp [hi]

@[simp] theorem zero200_getElem (i : Nat) (h : i < 200) : zero200[i] = 0 := by
  simp [zero200]

@[simp] theorem vectorOf_getElem {n : Nat} {α : Type} (f : Fin n → α) (i : Nat) (h : i < n) :
    (vectorOf f)[i] = f ⟨i, h⟩ := by
  simp [vectorOf]

@[simp] theorem xorAt_getElem (X : Sponge) (i : Nat) (b : Byte) (j : Nat) (h : j < 200) :
    (xorAt X i b)[j] = if j = i then X[j] ^^^ b else X[j] := by
  rw [xorAt, Vector.getElem_setIfInBounds]
  by_cases hji : j = i
  · subst hji
    simp [h]
  · simp [hji, Ne.symm hji]

theorem overwrite_getElem (l : List Byte) (start : Nat) (bytes : List Byte) (j : Nat) (hj : j < l.length) :
    (overwrite l start bytes)[j]'(by rw [overwrite_length]; exact hj) =
      if h : start ≤ j ∧ j - start < bytes.length then bytes[j - start]'h.2 else l[j] := by
  fun_induction overwrite l start bytes generalizing j with
  | case1 => simp at hj
  | case2 x xs => simp [overwrite]
  | case3 x xs b bs ih =>
    cases j with
    | zero => simp [overwrite]
    | succ j => simpa [overwrite] using ih j (by simpa using hj)
  | case4 x xs start bs ih =>
    cases j with
    | zero => simp [overwrite]
    | succ j => simpa [overwrite, Nat.add_sub_add_right] using ih j (by simpa using hj)

theorem putPending_getElem (PB : Pending) (start : Nat) (bytes : List Byte) (j : Nat) (hj : j < 136) :
    (putPending PB start bytes)[j] =
      if h : start ≤ j ∧ j - start < bytes.length then bytes[j - start]'h.2 else PB[j] := by
  rw [← Vector.getElem_toList (xs := PB) (by simpa using hj)]
  exact overwrite_getElem PB.toList start bytes j (by simpa using hj)

@[simp] theorem putPending_nil (PB : Pending) (start : Nat) : putPending PB start [] = PB := by
  ext j hj
  simp [putPending_getElem]

theorem xorFront_getElem (l blk : List Byte) (i : Nat) (hi : i < l.length) :
    (xorFront l blk)[i]'(by rw [xorFront_length]; exact hi) =
      if h : i < blk.length then l[i] ^^^ blk[i] else l[i] := by
  fun_induction xorFront l blk generalizing i with
  | case1 => simp at hi
  | case2 x xs => simp [xorFront]
  | case3 x xs b bs ih =>
    cases i with
    | zero => simp [xorFront]
    | succ i => simpa [xorFront] using ih i (by simpa using hi)

theorem absorbBlock_getElem (X : Sponge) (blk : List Byte) (i : Nat) (hi : i < 200) :
    (absorbBlock X blk)[i] = if h : i < blk.length then X[i] ^^^ blk[i] else X[i] := by
  rw [← Vector.getElem_toList (xs := X) (by simpa using hi)]
  exact xorFront_getElem X.toList blk i (by simpa using hi)

/-- The eight bytes of a lane, named. -/
theorem firstLane_of_length (l : List Byte) (h : 8 ≤ l.length) :
    firstLane l = l[7] ++ l[6] ++ l[5] ++ l[4] ++ l[3] ++ l[2] ++ l[1] ++ l[0] := by
  match l, h with
  | b0 :: b1 :: b2 :: b3 :: b4 :: b5 :: b6 :: b7 :: rest, _ => rfl

theorem lane_eq (X : Sponge) (j : Fin 25) :
    lane X j =
      X[8 * j.val + 7] ++ X[8 * j.val + 6] ++ X[8 * j.val + 5] ++ X[8 * j.val + 4] ++
        X[8 * j.val + 3] ++ X[8 * j.val + 2] ++ X[8 * j.val + 1] ++ X[8 * j.val] := by
  rw [lane, firstLane_of_length _ (by simp; omega)]
  simp

@[simp] theorem digestOf_getElem (X : Sponge) (i : Nat) (hi : i < 32) : (digestOf X)[i] = X[i] := by
  simp [digestOf]

@[simp] theorem gridOf_getElem (f : Fin 5 → Fin 5 → Lane) (x y : Nat) (hx : x < 5) (hy : y < 5) :
    (gridOf f)[x][y] = f ⟨x, hx⟩ ⟨y, hy⟩ := by
  simp [gridOf]

theorem ofGrid_getElem (A : LaneGrid) (i : Nat) (hi : i < 200) :
    (ofGrid A)[i] = (A[i / 8 % 5][i / 40]).extractLsb' (8 * (i % 8)) 8 := by
  simp [ofGrid]

/-- The permutation opened: cite this where a proof is about its definition. -/
theorem keccakF_eq (X : Sponge) : keccakF X = ofGrid (keccakRounds (toGrid X)) := by
  delta keccakF
  rfl

theorem pendingBytes_length (e : Engine) : (pendingBytes e).length = e.PC.val := by
  have := e.PC.isLt
  simp only [pendingBytes, List.length_take, Vector.length_toList]
  omega

theorem pendingBytes_getElem (e : Engine) (i : Nat) (h : i < (pendingBytes e).length) :
    (pendingBytes e)[i] = e.PB[i]'(by have := pendingBytes_length e; omega) := by
  simp [pendingBytes]

@[simp] theorem pendingBytes_of_PC_zero {e : Engine} (h : e.PC = 0) : pendingBytes e = [] := by
  simp [pendingBytes, h]

@[simp] theorem pendingBytes_resetEngine (e : Engine) : pendingBytes (resetEngine e) = [] :=
  pendingBytes_of_PC_zero rfl

@[simp] theorem pendingBytes_fresh : pendingBytes Engine.fresh = [] :=
  pendingBytes_of_PC_zero rfl

/-- `pendingBytes` reads the first `PC` bytes of `PB`, whatever stands after them. -/
theorem pendingBytes_eq_of_getElem {e : Engine} {bytes : List Byte} (hlen : e.PC.val = bytes.length)
    (h : ∀ i (hi : i < bytes.length), e.PB[i]'(by have := e.PC.isLt; omega) = bytes[i]) :
    pendingBytes e = bytes := by
  apply List.ext_getElem
  · rw [pendingBytes_length, hlen]
  · intro i h1 h2
    rw [pendingBytes_getElem, h i h2]

end Sys2Proof.Machine
end

