-- ==== Sys2Proof/Laws/Absorb.lean ====
section
/-!
SUPPORT. What the absorb loop does: its closed form, and how it splits over a concatenation.
-/

namespace Sys2Proof.Machine

/-- Less than one block: nothing is absorbed. -/
theorem absorbFrom_of_short (X : Sponge) {B : List Byte} (h : B.length < 136) : absorbFrom X B = X := by
  simp [absorbFrom, Nat.div_eq_of_lt h]

/-- At least one block: absorb the first and go on. -/
theorem absorbFrom_of_block (X : Sponge) {B : List Byte} (h : 136 ≤ B.length) :
    absorbFrom X B = absorbFrom (absorbPermute X (B.take 136)) (B.drop 136) := by
  have hdiv : B.length / 136 = (B.drop 136).length / 136 + 1 := by
    rw [List.length_drop]; omega
  have hshift (b : Nat) : 136 * (b + 1) = 136 + 136 * b := by ring
  simp [absorbFrom, hdiv, List.range_succ_eq_map, List.foldl_map, List.drop_drop, hshift]

/-- Absorbing looks at whole blocks only. -/
theorem absorbFrom_append (X : Sponge) {A : List Byte} (B : List Byte) (hA : A.length % 136 = 0) :
    absorbFrom X (A ++ B) = absorbFrom (absorbFrom X A) B := by
  induction hk : A.length / 136 generalizing X A with
  | zero =>
    have : A.length = 0 := by omega
    have : A = [] := List.length_eq_zero_iff.mp this
    subst this
    simp [absorbFrom]
  | succ k ih =>
    have hlen : 136 ≤ A.length := by omega
    rw [absorbFrom_of_block X (B := A ++ B) (by simp; omega), absorbFrom_of_block X hlen,
      List.take_append_of_le_length hlen, List.drop_append_of_le_length hlen]
    exact ih _ (by simp; omega) (by simp; omega)

/-- One full block. -/
theorem absorbFrom_one (X : Sponge) {blk : List Byte} (h : blk.length = 136) :
    absorbFrom X blk = absorbPermute X blk := by
  rw [absorbFrom_of_block X (by omega), absorbFrom_of_short _ (by simp; omega), List.take_of_length_le (by omega)]

theorem absorbLoop_closed (fuel : Nat) :
    ∀ a : Absorbing, a.rest.length < fuel + 136 →
      absorbLoop fuel a =
        { X := absorbFrom a.X a.rest, rest := a.rest.drop (136 * (a.rest.length / 136)),
          perms := a.perms + a.rest.length / 136 } := by
  induction fuel with
  | zero =>
    intro a h
    have h' : a.rest.length < 136 := by omega
    simp [absorbLoop, absorbFrom_of_short _ h', Nat.div_eq_of_lt h']
  | succ fuel ih =>
    intro a h
    by_cases hb : 136 ≤ a.rest.length
    · have hdiv : a.rest.length / 136 = (a.rest.length - 136) / 136 + 1 := by omega
      rw [absorbLoop, if_pos hb, ih _ (by simp only [absorbNext, List.length_drop]; omega),
        absorbFrom_of_block a.X hb]
      simp only [absorbNext, List.length_drop, List.drop_drop, Absorbing.mk.injEq, true_and]
      exact ⟨by congr 1; omega, by omega⟩
    · have h' : a.rest.length < 136 := by omega
      rw [absorbLoop_of_short _ _ h', absorbFrom_of_short _ h', Nat.div_eq_of_lt h']
      simp

/-- Everything the absorb loop of `SUM256` and of `WRITE`'s phase FAST does. -/
theorem absorbBlocks_closed (a : Absorbing) :
    absorbBlocks a =
      { X := absorbFrom a.X a.rest, rest := a.rest.drop (136 * (a.rest.length / 136)),
        perms := a.perms + a.rest.length / 136 } :=
  absorbLoop_closed _ a (by omega)

theorem wholeBlocks_append_tailBytes (M : List Byte) : wholeBlocks M ++ tailBytes M = M :=
  List.take_append_drop _ M

theorem wholeBlocks_length (M : List Byte) : (wholeBlocks M).length = 136 * (M.length / 136) := by
  simp [wholeBlocks]; omega

theorem tailBytes_length (M : List Byte) : (tailBytes M).length = M.length % 136 := by
  simp [tailBytes]; omega

/-- Bytes after the last whole block do not matter to the absorb loop. -/
theorem absorbFrom_wholeBlocks (X : Sponge) (M : List Byte) : absorbFrom X (wholeBlocks M) = absorbFrom X M := by
  have hshort : (tailBytes M).length < 136 := by rw [tailBytes_length]; omega
  have h := absorbFrom_append X (tailBytes M) (A := wholeBlocks M) (by rw [wholeBlocks_length]; omega)
  rw [wholeBlocks_append_tailBytes, absorbFrom_of_short _ hshort] at h
  exact h.symm

/-- A prefix of whole blocks comes out of `wholeBlocks` unchanged. -/
theorem wholeBlocks_append {A : List Byte} (B : List Byte) (hA : A.length % 136 = 0) :
    wholeBlocks (A ++ B) = A ++ wholeBlocks B := by
  have h : 136 * ((A ++ B).length / 136) = A.length + 136 * (B.length / 136) := by
    rw [List.length_append]; omega
  rw [wholeBlocks, h, List.take_append, List.take_of_length_le (by omega), Nat.add_sub_cancel_left, wholeBlocks]

theorem tailBytes_append {A : List Byte} (B : List Byte) (hA : A.length % 136 = 0) :
    tailBytes (A ++ B) = tailBytes B := by
  have h : 136 * ((A ++ B).length / 136) = A.length + 136 * (B.length / 136) := by
    rw [List.length_append]; omega
  rw [tailBytes, h, List.drop_append, List.drop_of_length_le (by omega), Nat.add_sub_cancel_left, tailBytes,
    List.nil_append]

theorem tailBytes_of_short {M : List Byte} (h : M.length < 136) : tailBytes M = M := by
  simp [tailBytes, Nat.div_eq_of_lt h]

theorem wholeBlocks_of_short {M : List Byte} (h : M.length < 136) : wholeBlocks M = [] := by
  simp [wholeBlocks, Nat.div_eq_of_lt h]

end Sys2Proof.Machine
end

