-- ==== Sys2Proof/Laws/Write.lean ====
section
/-!
SUPPORT. What each phase of a `WRITE` does (43_streaming.md R93, R97).
-/

namespace Sys2Proof.Machine

/-- Phase FAST in closed form. -/
theorem fastBlocks_closed (w : WriteWork) :
    fastBlocks w =
      { w with S := absorbFrom w.S w.rest, rest := w.rest.drop (136 * (w.rest.length / 136)),
               perms := w.perms + w.rest.length / 136 } := by
  simp only [fastBlocks, absorbBlocks_closed]

/-- TOPUP and ABSORB_PB when the pending bytes and the chunk do not fill a block: the chunk is used up. -/
theorem absorbPending_topUp_of_short (e : Engine) (chunk : List Byte) (h0 : 0 < e.PC.val)
    (h : e.PC.val + chunk.length < 136) :
    absorbPending (topUp (writeStart e chunk)) =
      { S := e.S, PB := putPending e.PB e.PC.val chunk, pc := e.PC.val + chunk.length, rest := [], perms := 0 } := by
  have hmin : min (136 - e.PC.val) chunk.length = chunk.length := by omega
  have hne : e.PC.val + chunk.length ≠ 136 := by omega
  simp [absorbPending, topUp, writeStart, h0, hmin, hne]

/-- The 136 bytes of `PB` once TOPUP has completed a block. -/
theorem putPending_topUp_toList (e : Engine) (chunk : List Byte) (h : 136 ≤ e.PC.val + chunk.length) :
    (putPending e.PB e.PC.val (chunk.take (136 - e.PC.val))).toList =
      pendingBytes e ++ chunk.take (136 - e.PC.val) := by
  have hpc := e.PC.isLt
  apply List.ext_getElem
  · rw [List.length_append, pendingBytes_length]; simp; omega
  · intro i h1 h2
    have hi : i < 136 := by simpa using h1
    rw [Vector.getElem_toList, putPending_getElem]
    by_cases hlt : i < e.PC.val
    · rw [dif_neg (by omega), List.getElem_append_left (by rw [pendingBytes_length]; exact hlt), pendingBytes_getElem]
    · rw [dif_pos ⟨by omega, by rw [List.length_take]; omega⟩,
        List.getElem_append_right (by rw [pendingBytes_length]; omega)]
      simp only [pendingBytes_length]

/-- TOPUP and ABSORB_PB when they complete a block: it is absorbed and the buffer is empty. -/
theorem absorbPending_topUp_of_full (e : Engine) (chunk : List Byte) (h0 : 0 < e.PC.val)
    (h : 136 ≤ e.PC.val + chunk.length) :
    absorbPending (topUp (writeStart e chunk)) =
      { S := absorbPermute e.S (pendingBytes e ++ chunk.take (136 - e.PC.val)),
        PB := putPending e.PB e.PC.val (chunk.take (136 - e.PC.val)), pc := 0,
        rest := chunk.drop (136 - e.PC.val), perms := 1 } := by
  have hpc := e.PC.isLt
  have hmin : min (136 - e.PC.val) chunk.length = 136 - e.PC.val := by omega
  have h136 : e.PC.val + (136 - e.PC.val) = 136 := by omega
  simp [absorbPending, topUp, writeStart, h0, hmin, h136, putPending_topUp_toList e chunk h]

/-- TOPUP and ABSORB_PB with nothing pending: nothing happens. -/
theorem absorbPending_topUp_of_empty (e : Engine) (chunk : List Byte) (h0 : e.PC.val = 0) :
    absorbPending (topUp (writeStart e chunk)) = writeStart e chunk := by
  simp [absorbPending, topUp, writeStart, h0]

end Sys2Proof.Machine
end

