-- ==== Sys2Proof/Laws/Exec.lean ====
section
/-!
SUPPORT. Everything a command and a step can do, said once: which engine a command leaves and which response it
sends.
-/

namespace Sys2Proof.Machine

/-- The engine a command leaves. -/
def engineAfter (i : Instr) (e : Engine) : Engine :=
  match i with
  | .reset => resetEngine e
  | .write chunk => writeEngine e chunk
  | .finalize => e
  | .sum256 _ => e

/-- The response a command sends. -/
def responseTo (i : Instr) (e : Engine) : Response :=
  match i with
  | .reset => .ok
  | .write _ => .ok
  | .finalize => .okDigest (finalizeDigest e)
  | .sum256 data => .okDigest (sum256Digest data)

/-- Every command completes, changes the executing instance's engine and response list, and nothing else. -/
theorem exec_eq (i : Instr) (s : State) :
    exec i s = .next (complete s (engineAfter i s.cur.engine) (responseTo i s.cur.engine)) := by
  cases i <;> rfl

/-- What a step does: idle, a rejection, or one command. -/
theorem step_cases (s : State) :
    (takeFrame s.cur.rx = none ∧ step s = .next (passTurn s)) ∨
    (∃ f rest r, takeFrame s.cur.rx = some (f, rest) ∧ decode f.hdr f.payload = .error r ∧
      step s = .next (passTurn (rejectCommand (consume s rest)))) ∨
    (∃ f rest i, takeFrame s.cur.rx = some (f, rest) ∧ decode f.hdr f.payload = .ok i ∧
      step s = .next (passTurn (complete (consume s rest) (engineAfter i s.cur.engine)
        (responseTo i s.cur.engine)))) := by
  cases hf : takeFrame s.cur.rx with
  | none => exact .inl ⟨rfl, by simp [step, hf]⟩
  | some p =>
    obtain ⟨f, rest⟩ := p
    cases hd : decode f.hdr f.payload with
    | error r => exact .inr (.inl ⟨f, rest, r, rfl, hd, by simp [step, hf, hd]⟩)
    | ok i => exact .inr (.inr ⟨f, rest, i, rfl, hd, by simp [step, hf, hd, exec_eq]⟩)

/-- Commands in a row. -/
theorem runCommands_cons (i : Instr) (is : List Instr) (s : State) :
    runCommands (i :: is) s =
      runCommands is (complete s (engineAfter i s.cur.engine) (responseTo i s.cur.engine)) := by
  simp [runCommands, exec_eq]

end Sys2Proof.Machine
end

