-- ==== Sys2Proof/Laws/Decode.lean ====
section
/-!
SUPPORT. The header's bytes and fields.
-/

namespace Sys2Proof

/-- A header is the header of its own wire bytes. -/
theorem headerOfBytes_headerBytes (h : Header) :
    headerOfBytes (h.extractLsb' 0 8) (h.extractLsb' 8 8) (h.extractLsb' 16 8) (h.extractLsb' 24 8)
      (h.extractLsb' 32 8) (h.extractLsb' 40 8) (h.extractLsb' 48 8) (h.extractLsb' 56 8) = h := by
  simp (disch := rfl) only [headerOfBytes, BitVec.extractLsb'_append_extractLsb'_eq_extractLsb']
  simp

/-- The number a header stands for, byte by byte (30_encoding.md R51). -/
theorem headerOfBytes_toNat (b0 b1 b2 b3 b4 b5 b6 b7 : Byte) :
    (headerOfBytes b0 b1 b2 b3 b4 b5 b6 b7).toNat =
      b0.toNat + 2 ^ 8 * b1.toNat + 2 ^ 16 * b2.toNat + 2 ^ 24 * b3.toNat + 2 ^ 32 * b4.toNat +
        2 ^ 40 * b5.toNat + 2 ^ 48 * b6.toNat + 2 ^ 56 * b7.toNat :=
  Machine.joined_toNat b7 b6 b5 b4 b3 b2 b1 b0

/-- A whole command at the head of a stream is cut off it. -/
theorem takeFrame_frame (h : Header) (payload rest : List Byte) (hlen : payload.length = h.len) :
    takeFrame (headerBytes h ++ payload ++ rest) = some (⟨h, payload⟩, rest) := by
  simp only [headerBytes, List.cons_append, List.nil_append, takeFrame, headerOfBytes_headerBytes]
  rw [if_pos (by simp; omega)]
  simp [← hlen]

@[simp] theorem encodeHeader_opc (i : Instr) : (encodeHeader i).opc = opcode i := by
  apply BitVec.eq_of_getLsbD_eq
  intro k hk
  simp [Header.opc, encodeHeader, hk, show k < 16 by omega, show k < 64 by omega]

@[simp] theorem encodeHeader_rsvd (i : Instr) : (encodeHeader i).rsvd = 0 := by
  apply BitVec.eq_of_getLsbD_eq
  intro k hk
  simp [Header.rsvd, encodeHeader, hk, show 8 + k < 16 by omega]

/-- The length field holds the payload's length whenever it fits. -/
theorem encodeHeader_len {i : Instr} (h : WellFormed i) : (encodeHeader i).len = i.payload.length := by
  have hfield : (encodeHeader i).extractLsb' 16 48 = BitVec.ofNat 48 i.payload.length := by
    apply BitVec.eq_of_getLsbD_eq
    intro k hk
    have hop : (opcode i).getLsbD (16 + k) = false := BitVec.getLsbD_of_ge _ _ (by omega)
    simp only [encodeHeader, BitVec.getLsbD_extractLsb', BitVec.getLsbD_or, BitVec.getLsbD_shiftLeft,
      BitVec.getLsbD_setWidth, BitVec.getLsbD_ofNat, hop, hk, show 16 + k < 64 by omega, show k < 64 by omega,
      Nat.add_sub_cancel_left]
    simp
  rw [Header.len, hfield, BitVec.toNat_ofNat, Nat.mod_eq_of_lt h]

end Sys2Proof
end

