-- ==== Sys2Proof/Laws/PerInstr.lean ====
section
/-!
SUPPORT. Statements about every command as syntax, one lemma per constructor.
-/

namespace Sys2Proof.Laws.WireForm

open Sys2Proof

/-- The command's wire form (30_encoding.md R50, R54, R63): 8 header bytes and the payload, the first byte its own
operation code, one of the four of R54, and the second the reserved field, 0. -/
def Statement (i : Instr) : Prop :=
  (encode i).length = 8 + i.payload.length ∧
    (encode i).take 2 = [opcode i, 0x00] ∧ opcode i ∈ [0x01, 0x02, 0x03, 0x04]

/-- What every command has in common. -/
theorem of_opcode (i : Instr) (h : opcode i ∈ [0x01#8, 0x02#8, 0x03#8, 0x04#8]) : Statement i := by
  refine ⟨by simp [encode, headerBytes]; omega, ?_, h⟩
  have h0 : (encodeHeader i).extractLsb' 0 8 = opcode i := encodeHeader_opc i
  have h1 : (encodeHeader i).extractLsb' 8 8 = 0x00 := encodeHeader_rsvd i
  simp [encode, headerBytes, h0, h1]

theorem reset : Statement .reset := of_opcode _ (by simp [opcode])

theorem write (chunk : List Byte) : Statement (.write chunk) := of_opcode _ (by simp [opcode])

theorem finalize : Statement .finalize := of_opcode _ (by simp [opcode])

theorem sum256 (data : List Byte) : Statement (.sum256 data) := of_opcode _ (by simp [opcode])

end Sys2Proof.Laws.WireForm
end

