-- ==== Sys2Proof/Laws/Run.lean ====
section
/-!
SUPPORT. Runs of the machine, one step at a time, and that they are the host's runs of it.
-/

namespace Sys2Proof.Machine

@[simp] theorem runSteps_zero (s : State) : runSteps 0 s = .next s := rfl

theorem runSteps_succ_of_step {s t : State} (h : step s = .next t) (k : Nat) :
    runSteps (k + 1) s = runSteps k t := by
  simp only [runSteps, h]

/-- One step of any machine's run. -/
theorem core_run_succ_of_next (M : Host.Core) {s t : M.State} (h : M.step s = .next t) (k : Nat) :
    M.run (k + 1) s = M.run k t := by
  rw [Host.Core.run.eq_def]
  simp only [h]

theorem core_run_succ_of_refused (M : Host.Core) {s : M.State} {r : M.Refusal} (h : M.step s = .refused r) (k : Nat) :
    M.run (k + 1) s = .refused r := by
  rw [Host.Core.run.eq_def]
  simp only [h]

/-- `runSteps` is the run of the machine behind the host's interface. -/
theorem core_run_eq_runSteps (k : Nat) : ∀ s : State, Host.Core.run core k s = runSteps k s := by
  induction k with
  | zero => intro s; rfl
  | succ k ih =>
    intro s
    rw [runSteps]
    cases h : step s with
    | next t => exact (core_run_succ_of_next core h k).trans (ih t)
    | fault f => exact f.rec
    | refused r => exact core_run_succ_of_refused core h k

end Sys2Proof.Machine
end

