-- ==== Sys2Proof/Tests/Slice0.lean ====
section
/-!
SUPPORT. The model's own tests. Expected values come from spec/: the vectors V-… of 95_test_vectors.md, the wire
examples of 30_encoding.md, the examples of the rules named. Then a witness for the hypotheses of every statement
that has some.
-/

namespace Sys2Proof.Tests

open Sys2Proof Sys2Proof.Machine

/-! ### Well-formedness -/

/-- One byte more than the 48-bit length field can say (R53). -/
theorem test_write_too_long_is_ill_formed : ¬WellFormed (.write (List.replicate (2 ^ 48) 0)) := by
  rw [WellFormed, Instr.payload, List.length_replicate]
  decide

theorem test_sum256_too_long_is_ill_formed : ¬WellFormed (.sum256 (List.replicate (2 ^ 48) 0)) := by
  rw [WellFormed, Instr.payload, List.length_replicate]
  decide

theorem test_longest_write_is_well_formed : WellFormed (.write (List.replicate (2 ^ 48 - 1) 0)) := by
  rw [WellFormed, Instr.payload, List.length_replicate]
  decide

/-! ### Decoding, from words written out from the spec -/

/-- What the first command of a wire stream decodes to. -/
def decodeWire (wire : List Byte) : Option (Except Illegal Instr) :=
  (takeFrame wire).map fun p => decode p.1.hdr p.1.payload

/-- R55, V-DEC-1. -/
theorem test_decode_reset : decodeWire [0x01, 0, 0, 0, 0, 0, 0, 0] = some (.ok .reset) := by rfl

/-- R57, V-DEC-4. -/
theorem test_decode_write : decodeWire [0x02, 0, 5, 0, 0, 0, 0, 0, 0x68, 0x65, 0x6c, 0x6c, 0x6f] =
    some (.ok (.write [0x68, 0x65, 0x6c, 0x6c, 0x6f])) := by rfl

/-- R56, V-DEC-7. -/
theorem test_decode_finalize : decodeWire [0x03, 0, 0, 0, 0, 0, 0, 0] = some (.ok .finalize) := by rfl

/-- R58, V-DEC-9. -/
theorem test_decode_sum256 : decodeWire [0x04, 0, 0, 0, 0, 0, 0, 0] = some (.ok (.sum256 [])) := by rfl

/-- V-DEC-8: `LEN != 0` on `FINALIZE`. -/
theorem test_decode_finalize_with_payload : decodeWire [0x03, 0, 2, 0, 0, 0, 0, 0, 9, 9] =
    some (.error .lengthNonzero) := by rfl

/-- V-DEC-13: a reserved `OPC`. -/
theorem test_decode_reserved : decodeWire [0xff, 0, 3, 0, 0, 0, 0, 0, 1, 2, 3] =
    some (.error .reservedOpcode) := by rfl

/-- V-DEC-14: the length field's largest value. -/
theorem test_header_max_length : Header.len 0xFFFFFFFFFFFF0002 = 2 ^ 48 - 1 := by decide

/-- V-DEC-10: `LEN = 0x100` stands in wire byte 3. -/
theorem test_header_length_bytes : (headerOfBytes 0x04 0 0 1 0 0 0 0).len = 256 := by decide

/-- The opcode table's match words. -/
theorem test_table_words : decodeTableWord 64 1 = some .reset ∧ decodeTableWord 64 2 = some (.write []) ∧
    decodeTableWord 64 3 = some .finalize ∧ decodeTableWord 64 0x30004 = some (.sum256 [0, 0, 0]) ∧
    decodeTableWord 64 0 = none := by decide

/-! ### Primitives -/

/-- V-PAD-2: `"hello"` absorbed and padded at 5. -/
theorem test_pad_hello :
    let X := pad (absorbBlock zero200 [0x68, 0x65, 0x6c, 0x6c, 0x6f]) 5
    X.toList.take 7 = [0x68, 0x65, 0x6c, 0x6c, 0x6f, 0x01, 0] ∧ X[135] = 0x80 ∧ X[134] = 0 := by
  decide +kernel

/-- V-PAD-5: two XORs on one byte, 5a to db. -/
theorem test_pad_135 : (pad (zero200.set 135 0x5a) 135)[135] = 0xdb := by decide +kernel

/-- V-PERM-1, lanes 0 and 24 of `KeccakF(zero200)`. -/
theorem test_permutation_of_zero : lane (keccakF zero200) 0 = 0xF1258F7940E1DDE7 ∧
    lane (keccakF zero200) 24 = 0xEAF1FF7B5CECA249 := by decide +kernel

/-! ### Commands, one step each -/

/-- An engine whose bytes are all `fill` and whose pending count is `count`. -/
def filled (fill : Byte) (count : Fin 136) : Engine :=
  { S := Vector.replicate 200 fill, PB := Vector.replicate 136 fill, PC := count }

/-- A one-instance machine with that engine and these bytes in its queue. -/
def machine (e : Engine) (rx : List Byte) : State := { cur := { engine := e, rx := rx, tx := [] }, others := [] }

/-- An engine written out as lists, which Lean's kernel compares fast. -/
def written (e : Engine) : List Byte × List Byte × Nat := (e.S.toList, e.PB.toList, e.PC.val)

/-- The state an outcome holds. -/
def stateOf (o : Host.Outcome State Fault Refusal) : Option State :=
  match o with
  | .next t => some t
  | .fault _ => none
  | .refused _ => none

/-- R91: `RESET` on the wire, from `PC = 5` and a nonzero `S`; `PB` keeps its bytes. -/
theorem test_reset_step :
    (stateOf (step (machine (filled 0xaa 5) [0x01, 0, 0, 0, 0, 0, 0, 0]))).map
      (fun t => (written t.cur.engine, t.cur.tx)) =
    some ((List.replicate 200 0, List.replicate 136 0xaa, 0), [.ok]) := by decide +kernel

/-- V-STR-3: after 100 pending bytes a `WRITE` of 100 tops up 36, absorbs a block and keeps 64; the count of section 2.7. -/
theorem test_write_tops_up_and_keeps_tail :
    let w := writeWork (writeEngine Engine.fresh (seqBytes 100)) ((seqBytes 200).drop 100)
    w.pc = 64 ∧ w.perms = 1 ∧ w.PB.toList.take 64 = (seqBytes 200).drop 136 := by decide +kernel

/-- P1, command 3: `WRITE "lo"` after `"hel"`, a top-up that completes no block. -/
theorem test_write_step :
    (stateOf (step (machine (writeEngine Engine.fresh [0x68, 0x65, 0x6c])
      [0x02, 0, 2, 0, 0, 0, 0, 0, 0x6c, 0x6f, 0x01]))).map
      (fun t => (t.cur.engine.S.toList, t.cur.engine.PC, t.cur.engine.PB.toList.take 5, t.cur.rx, t.cur.tx)) =
    some (List.replicate 200 0, 5, [0x68, 0x65, 0x6c, 0x6c, 0x6f], [0x01], [.ok]) := by decide +kernel

/-- V-STR-5: `FINALIZE` after `seq(135)`, the `0x81` case; the digest V-SUM-4. -/
theorem test_finalize_one_byte_short :
    (finalizeDigest (writeEngine Engine.fresh (seqBytes 135))).toList =
      [0xcb, 0xdf, 0xd9, 0xde, 0xe5, 0xfa, 0xad, 0x38, 0x18, 0xd6, 0xb0, 0x6f, 0x95, 0xa2, 0x19, 0xfd,
       0x29, 0x0b, 0x0e, 0x17, 0x06, 0xf6, 0xa8, 0x2e, 0x5a, 0x59, 0x5b, 0x9c, 0xe9, 0xfa, 0xca, 0x62] := by
  decide +kernel

/-- `FINALIZE` leaves `S`, `PB` and `PC` (R99). -/
theorem test_finalize_writes_nothing :
    (stateOf (step (machine (filled 0xaa 5) [0x03, 0, 0, 0, 0, 0, 0, 0]))).map (fun t => written t.cur.engine) =
      some (List.replicate 200 0xaa, List.replicate 136 0xaa, 5) := by decide +kernel

/-- V-SUM-6: two blocks, the loop and a one-byte tail. -/
theorem test_sum256_137_bytes :
    (sum256Digest (seqBytes 137)).toList =
      [0xac, 0x73, 0xd4, 0xfa, 0xe6, 0x8b, 0x84, 0x53, 0xf7, 0x64, 0x00, 0x7c, 0x1a, 0x20, 0xce, 0x95,
       0x99, 0x41, 0x87, 0x86, 0x1f, 0x0c, 0x32, 0x27, 0xa3, 0xa8, 0xe9, 0x9a, 0x73, 0xa3, 0xb1, 0xdb] := by
  decide +kernel

/-- `SUM256` touches no state (R86). -/
theorem test_sum256_writes_nothing :
    (stateOf (step (machine (filled 0xaa 5) [0x04, 0, 1, 0, 0, 0, 0, 0, 7]))).map (fun t => written t.cur.engine) =
      some (List.replicate 200 0xaa, List.replicate 136 0xaa, 5) := by decide +kernel

/-- P3, command 5: `RESET` with `LEN = 1` is rejected; the byte is discarded and the instance is not reset. -/
theorem test_rejected_header_step :
    (stateOf (step (machine (filled 0xaa 5) [0x01, 0, 1, 0, 0, 0, 0, 0, 0xff, 0x03]))).map (fun t => (written t.cur.engine, t.cur.rx, t.cur.tx)) =
      some ((List.replicate 200 0xaa, List.replicate 136 0xaa, 5), [0x03], [.illegalCommand]) := by decide +kernel

/-- P5: with two instances the turn passes, and the command of one leaves the other. -/
theorem test_two_instances :
    (stateOf (step { cur := { Instance.fresh with rx := [0x02, 0, 1, 0, 0, 0, 0, 0, 7] },
                     others := [Instance.fresh] })).map (fun t => (t.cur.engine.PC, t.cur.tx, t.others.map fun i => (i.engine.PC, i.tx))) =
      some (0, [], [(1, [.ok])]) := by decide +kernel

/-- The host's placing a table word makes it the first command after reset. -/
theorem test_table_word_runs_first :
    (stateOf (step (State.reset.withFetchWord 64 0x10002))).map (fun t => (t.cur.engine.PC, t.cur.rx, t.cur.tx)) =
      some (1, [], [.ok]) := by decide +kernel

/-! ### The assembler -/

/-- R65: the literal forms. -/
theorem test_parse_operands :
    ((parseBytes 40 "cat(\"a\", 0x62)".toList).map fun p => bytesOf p.1) = some [0x61, 0x62] ∧
    ((parseBytes 40 "rep(3, 0x61)".toList).map fun p => bytesOf p.1) = some [0x61, 0x61, 0x61] ∧
    ((parseBytes 40 "seq(3)".toList).map fun p => bytesOf p.1) = some [0, 1, 2] ∧
    ((parseBytes 40 "seq(300)[256..258)".toList).map fun p => bytesOf p.1) = some [0, 1] ∧
    ((parseBytes 40 "0x686".toList).map fun p => bytesOf p.1) = none := by decide +kernel

/-- R64, R66: mnemonics in any case, comments, and the pseudo-instruction. -/
theorem test_parse_program :
    (parseProgram "; a program\nReset\nwrite \"lo\" ; two bytes\n HASH 0x01\n".toList) =
      some [.reset, .write (.text ['l', 'o']), .hash (.hex [0x01])] := by decide +kernel

/-- P1, command 3 on the wire. -/
theorem test_assemble :
    assemble [.write (.text ['l', 'o'])] = some [0x02, 0, 2, 0, 0, 0, 0, 0, 0x6c, 0x6f] := by decide +kernel

/-! ### Witnesses: states and operands that meet the hypotheses of each statement -/

theorem witness_DecodeEncodeRoundTrip : WellFormed (.write [0x68, 0x69]) := by decide

theorem witness_EncodeDecodeRoundTrip :
    [0x68#8, 0x69#8].length = Header.len 0x20002 ∧ decode 0x20002 [0x68, 0x69] = .ok (.write [0x68, 0x69]) := by
  exact ⟨by decide, rfl⟩

theorem witness_ResetAndFinalizeEncodings :
    (Header.opc 0x10001 = 0x01 ∧ Header.len 0x10001 ≠ 0) ∧
      (Header.opc 0xFFFFFFFFFFFF0003 = 0x03 ∧ Header.len 0xFFFFFFFFFFFF0003 ≠ 0) := by decide

theorem witness_WriteAndSum256Encodings :
    ([] : List Byte).length < 2 ^ 48 ∧ (List.replicate (2 ^ 48 - 1) (0 : Byte)).length < 2 ^ 48 := by
  rw [List.length_replicate]
  decide

theorem witness_StepRunsDecodedInstruction :
    WellFormed (.write [7]) ∧
      (machine Engine.fresh [0x02, 0, 1, 0, 0, 0, 0, 0, 7, 0x03]).cur.rx = encode (.write [7]) ++ [0x03] := by
  decide

/-- One header for each condition of R59, at the ends of the reserved ranges. -/
theorem witness_IllegalCommandEffect :
    ((takeFrame [0, 0, 0, 0, 0, 0, 0, 0]).map fun p => p.1.hdr.opc) = some 0x00 ∧
    ((takeFrame [5, 0, 0, 0, 0, 0, 0, 0]).map fun p => decide (0x05 ≤ p.1.hdr.opc.toNat)) = some true ∧
    ((takeFrame [0xff, 0, 0, 0, 0, 0, 0, 0]).map fun p => decide (0x05 ≤ p.1.hdr.opc.toNat)) = some true ∧
    ((takeFrame [2, 1, 0, 0, 0, 0, 0, 0]).map fun p => decide (p.1.hdr.rsvd ≠ 0x00)) = some true ∧
    ((takeFrame [1, 0, 1, 0, 0, 0, 0, 0, 9]).map fun p => decide (p.1.hdr.opc = 0x01 ∧ p.1.hdr.len ≠ 0)) =
      some true ∧
    ((takeFrame [3, 0, 1, 0, 0, 0, 0, 0, 9]).map fun p => decide (p.1.hdr.opc = 0x03 ∧ p.1.hdr.len ≠ 0)) =
      some true := by decide

/-- No byte, seven bytes, and a header whose payload is one byte short. -/
theorem witness_IdleInstanceHoldsItsState :
    takeFrame [] = none ∧ takeFrame [1, 0, 0, 0, 0, 0, 0] = none ∧ takeFrame [2, 0, 2, 0, 0, 0, 0, 0, 7] = none ∧
      (machine Engine.fresh []).others = [] := by decide

/-- A frame for each of the three kinds of response. -/
theorem witness_OneResponsePerCommand :
    decodeWire [1, 0, 0, 0, 0, 0, 0, 0] = some (.ok .reset) ∧
    decodeWire [2, 0, 0, 0, 0, 0, 0, 0] = some (.ok (.write [])) ∧
    decodeWire [3, 0, 0, 0, 0, 0, 0, 0] = some (.ok .finalize) ∧
    decodeWire [4, 0, 1, 0, 0, 0, 0, 0, 7] = some (.ok (.sum256 [7])) ∧
    decodeWire [2, 1, 0, 0, 0, 0, 0, 0] = some (.error .reservedFieldNonzero) := by
  exact ⟨rfl, rfl, rfl, rfl, rfl⟩

theorem witness_RejectedCommandLeavesNoTrace :
    takeFrame [5, 0, 0, 0, 0, 0, 0, 0, 3, 0, 0, 0, 0, 0, 0, 0] = some (⟨0x05, []⟩, [3, 0, 0, 0, 0, 0, 0, 0]) ∧
      decode 0x05 [] = .error .reservedOpcode := by
  exact ⟨by decide, rfl⟩

/-- An accepted and a rejected command, and a byte of a third. -/
theorem witness_ResponsesInCommandOrder :
    (∀ f ∈ [(⟨0x10002, [7]⟩ : Frame), ⟨0x05, []⟩], f.payload.length = f.hdr.len) ∧
    [0x02, 0, 1, 0, 0, 0, 0, 0, 7, 0x05, 0, 0, 0, 0, 0, 0, 0, 0x01] =
      ([(⟨0x10002, [7]⟩ : Frame), ⟨0x05, []⟩].map fun f => headerBytes f.hdr ++ f.payload).flatten ++ [0x01] := by
  decide

theorem witness_TableWordIsNextCommand :
    decodeTableWord 64 1 = some .reset ∧ decodeTableWord 64 0x20004 = some (.sum256 [0, 0]) := by decide

theorem witness_PaddingXors : (0 : Nat) ≤ 135 ∧ (135 : Nat) ≤ 135 ∧ (135 : Nat) < 200 := by decide

theorem witness_AbsorbAllOneBlockAtATime :
    ([] : List Byte).length % 136 = 0 ∧ (List.replicate 136 (7 : Byte)).length % 136 = 0 ∧
      (List.replicate 136 (7 : Byte)).length = 136 := by simp

theorem witness_CapacityIsNeverXored :
    (List.replicate 136 (7 : Byte)).length ≤ 136 ∧ (135 : Nat) ≤ 135 ∧ (136 : Nat) ≤ 136 ∧ (136 : Nat) < 200 := by
  simp

/-- An engine that holds the one-byte message 07, with unobservable bytes after it. -/
def holdsSeven : Engine := { S := zero200, PB := Vector.replicate 136 7, PC := 1 }

theorem witness_CommandKeepsStreamInv : StreamInv holdsSeven [7] := by
  exact ⟨by decide, by decide, rfl⟩

theorem witness_StepKeepsAllStreams :
    AllStreams (machine holdsSeven []) ∧ ∃ t, step (machine holdsSeven []) = .next t := by
  refine ⟨?_, _, rfl⟩
  intro inst h
  simp only [instances, machine, List.mem_singleton] at h
  subst h
  exact ⟨[7], witness_CommandKeepsStreamInv⟩

/-- An engine as it is right after creation, with other bytes in `PB`. -/
def newEngine : Engine := { S := Vector.replicate 200 0, PB := Vector.replicate 136 0xaa, PC := 0 }

theorem witness_FinalizeEqualsSum256OfMessage :
    (machine newEngine []).cur.engine.S = Vector.replicate 200 0 ∧ (machine newEngine []).cur.engine.PC = 0 := ⟨rfl, rfl⟩

theorem witness_FinalizeDigestOfMessage :
    State.reset.cur.engine.S = Vector.replicate 200 0 ∧ State.reset.cur.engine.PC = 0 := ⟨rfl, rfl⟩

theorem witness_ResetActsLikeFresh : newEngine.S = Vector.replicate 200 0 ∧ newEngine.PC = 0 := ⟨rfl, rfl⟩

/-- Lengths on both sides of a block's, and of the length field's range. -/
theorem witness_Sum256RunsTheAbsorbLoop :
    136 ≤ (List.replicate 136 (7 : Byte)).length ∧ (List.replicate 135 (7 : Byte)).length < 136 ∧
      (List.replicate (2 ^ 48 - 1) (7 : Byte)).length < 2 ^ 48 := by
  rw [List.length_replicate, List.length_replicate, List.length_replicate]
  decide

/-- The ends of a lane, for the rotation. -/
theorem witness_RhoPiMoveLanes : (0 : Nat) < 64 ∧ (63 : Nat) < 64 := by decide

theorem witness_ChunkInvariance :
    ([[1], [2, 3], []] : List (List Byte)).flatten = ([[1, 2], [3]] : List (List Byte)).flatten := by decide

theorem witness_WriteAfterFinalizeContinues :
    (machine newEngine []).cur.engine.S = Vector.replicate 200 0 ∧ (machine newEngine []).cur.engine.PC = 0 := ⟨rfl, rfl⟩

/-- Two engines that differ in an unobservable byte. -/
theorem witness_PendingTailUnobservable :
    SameVisible holdsSeven { holdsSeven with PB := holdsSeven.PB.set 1 0xff } ∧
      holdsSeven ≠ { holdsSeven with PB := holdsSeven.PB.set 1 0xff } ∧
      (machine holdsSeven []).cur.tx = (machine { holdsSeven with PB := holdsSeven.PB.set 1 0xff } []).cur.tx := by
  refine ⟨⟨rfl, rfl, by decide +kernel⟩, fun h => ?_, rfl⟩
  have : holdsSeven.PB[1] = 0xff := by rw [h]; decide +kernel
  exact absurd this (by decide +kernel)

theorem witness_InstancesAreIndependent : (0 : Nat) ≠ 1 := by decide

theorem witness_ResetValues : Instance.fresh ∈ instances (State.powerOn 2) := by
  simp [instances, State.powerOn]

/-- A command in flight, so the host has no move; and an idle instance, to which it has one. -/
theorem witness_HostWaitsForAnswer :
    ((instances (machine Engine.fresh [3, 0, 0, 0, 0, 0, 0, 0]))[0]?).map (fun i => decide (i.rx ≠ [])) = some true ∧
      (hostIssue 0 [1, 0, 0, 0, 0, 0, 0, 0] State.reset).isSome = true := by decide

/-- The instance whose turn it is, and the last of three. -/
theorem witness_IssuedCommandIsExecuted : WellFormed (.sum256 [7]) ∧
    (instances (State.powerOn 2))[0]? = some Instance.fresh ∧
    (instances (State.powerOn 2))[2]? = some Instance.fresh ∧ Instance.fresh.rx = [] :=
  ⟨by decide, rfl, rfl, rfl⟩

theorem witness_PowerOnHoldsEmptyMessage : Instance.fresh ∈ instances (State.powerOn 0) := by
  simp [instances, State.powerOn]

theorem witness_ByteForms : (0 : Nat) < 1 ∧ (258 : Nat) ≤ 300 ∧ (1 : Nat) < 258 - 256 ∧
    ("~a".toList.all fun c => decide (c.toNat < 128)) = true ∧ "686".toList.length % 2 = 1 ∧
    ("6Fff".toList.length % 2 = 0 ∧ "6Fff".toList.all (fun c => (hexDigit c).isSome) = true) ∧
    hexBytes "6Fff".toList = some [0x6f, 0xff] := by decide

theorem witness_WireProgramRunsItsCommands :
    assemble [.reset, .finalize] = some [1, 0, 0, 0, 0, 0, 0, 0, 3, 0, 0, 0, 0, 0, 0, 0] ∧
      (machine holdsSeven []).others = [] := by decide

/-- The ends of the pending count's range, for the rows of the phase table. -/
theorem witness_WriteRefinesPhaseMachine :
    (0 < (writeStart holdsSeven []).pc ∧ (writeStart holdsSeven []).pc ≤ 136) ∧
      (topUp (writeStart (filled 7 135) [9])).pc = 136 := by decide +kernel

/-- Chunks at the ends of the length field's range. -/
theorem witness_WriteResult :
    ([] : List Byte).length < 2 ^ 48 ∧ (List.replicate (2 ^ 48 - 1) (0 : Byte)).length < 2 ^ 48 := by
  rw [List.length_replicate]
  decide

end Sys2Proof.Tests
end

section
/-!
The values after power-on and after `RESET` (10_state.md R20, R26).
-/

namespace Sys2Proof.Machine

/-- A system just powered on holds fresh instances only, whatever their number. -/
@[simp] theorem mem_instances_powerOn (n : Nat) (inst : Instance) :
    inst ∈ instances (State.powerOn n) ↔ inst = Instance.fresh := by
  simp only [instances, State.powerOn, List.mem_cons, List.mem_replicate]
  exact or_iff_left_of_imp And.right

/-- Settles O51: power-on makes fresh instances only, and `RESET` leaves `resetEngine`, in any state. -/
theorem resetValues : Obligations.ResetValues := by
  unfold Obligations.ResetValues
  constructor
  · intro n inst hinst
    obtain rfl := (mem_instances_powerOn n inst).mp hinst
    exact ⟨zero200_getElem, fresh_PC, rfl, rfl⟩
  · intro s
    exact ⟨_, exec_eq .reset s, zero200_getElem, resetEngine_PC s.cur.engine⟩

end Sys2Proof.Machine
end

section
/-!
Lanes of the byte arrays, and instances that share no state (20_memory.md R33, R47).
-/

namespace Sys2Proof.Machine

/-- Byte `k` of a lane (R33). -/
theorem lane_extractByte (X : Sponge) (j : Fin 25) (k : Fin 8) :
    (lane X j).extractLsb' (8 * k.val) 8 = X[8 * j.val + k.val] := by
  rw [lane_eq, joined_byte _ _ _ _ _ _ _ _ k.val k.isLt]
  fin_cases k <;> rfl

/-- The value of a lane, from its bytes (R33). -/
theorem lane_toNat (X : Sponge) (j : Fin 25) :
    (lane X j).toNat =
      X[8 * j.val].toNat + 2 ^ 8 * X[8 * j.val + 1].toNat + 2 ^ 16 * X[8 * j.val + 2].toNat +
        2 ^ 24 * X[8 * j.val + 3].toNat + 2 ^ 32 * X[8 * j.val + 4].toNat + 2 ^ 40 * X[8 * j.val + 5].toNat +
        2 ^ 48 * X[8 * j.val + 6].toNat + 2 ^ 56 * X[8 * j.val + 7].toNat := by
  rw [lane_eq, joined_toNat]

/-- Settles O21: a lane is its eight bytes joined most significant first. -/
theorem lanesAreLittleEndian : Obligations.LanesAreLittleEndian := by
  unfold Obligations.LanesAreLittleEndian
  exact fun X j => ⟨lane_toNat X j, fun k => (lane_extractByte X j k).symm⟩

/-- Replacing instance `k` changes that entry of the system's instance list and no other. -/
@[simp] theorem instances_updateInstance (s : State) (k : Nat) (f : Instance → Instance) :
    instances (updateInstance s k f) = (instances s).modify k f := by
  cases k <;> rfl

/-- One move of entry `k` before each entry `i` makes `n i` moves is one more move for entry `k`. -/
theorem mapIdx_iterate_modify {α : Type} (f : α → α) (n : Nat → Nat) (k : Nat) (l : List α) :
    (l.modify k f).mapIdx (fun i a => f^[n i] a) = l.mapIdx fun i a => f^[n i + if k = i then 1 else 0] a := by
  apply List.ext_getElem
  · simp
  · intro i _ _
    rw [List.getElem_mapIdx, List.getElem_mapIdx, List.getElem_modify]
    by_cases hki : k = i
    · rw [if_pos hki, if_pos hki, Function.iterate_succ_apply]
    · rw [if_neg hki, if_neg hki, Nat.add_zero]

/-- Moves that each touch one instance, in any order: every instance makes its own number of them. -/
theorem instances_foldl_updateInstance (f : Instance → Instance) (order : List Nat) (s : State) :
    instances (order.foldl (fun t k => updateInstance t k f) s) =
      (instances s).mapIdx fun k inst => f^[order.count k] inst := by
  induction order generalizing s with
  | nil => exact List.ext_getElem (by simp) (by simp)
  | cons k order ih =>
    rw [List.foldl_cons, ih, instances_updateInstance, mapIdx_iterate_modify]
    simp only [List.count_cons, beq_iff_eq]

/-- A command's outcome leaves the other instances, and what it makes of the executing one does not depend on them. -/
theorem exec_others (i : Instr) (cur : Instance) (others : List Instance) :
    exec i { cur := cur, others := others } =
      .next { cur := { cur with engine := engineAfter i cur.engine, tx := cur.tx ++ [responseTo i cur.engine] },
              others := others } :=
  exec_eq i _

/-- Settles O48: a command is local to its instance, and the list of who moves enters only by each one's count. -/
theorem anyInterleavingGivesSameResults : Obligations.AnyInterleavingGivesSameResults := by
  unfold Obligations.AnyInterleavingGivesSameResults
  exact ⟨fun i cur => ⟨_, exec_others i cur⟩, instances_foldl_updateInstance stepInstance⟩

end Sys2Proof.Machine
end

section
/-!
The wire format: header bytes, framing, the decoder and the encodings of the four commands (30_encoding.md).
-/

namespace Sys2Proof

section headerOfBytes
variable (b0 b1 b2 b3 b4 b5 b6 b7 : Byte)

@[simp] theorem headerOfBytes_opc : (headerOfBytes b0 b1 b2 b3 b4 b5 b6 b7).opc = b0 :=
  Machine.joined_byte b7 b6 b5 b4 b3 b2 b1 b0 0 (by decide)

@[simp] theorem headerOfBytes_rsvd : (headerOfBytes b0 b1 b2 b3 b4 b5 b6 b7).rsvd = b1 :=
  Machine.joined_byte b7 b6 b5 b4 b3 b2 b1 b0 1 (by decide)

/-- The length field is what the header's number leaves above its two low bytes. -/
theorem headerOfBytes_len :
    (headerOfBytes b0 b1 b2 b3 b4 b5 b6 b7).len =
      b2.toNat + 2 ^ 8 * b3.toNat + 2 ^ 16 * b4.toNat + 2 ^ 24 * b5.toNat + 2 ^ 32 * b6.toNat +
        2 ^ 40 * b7.toNat := by
  have := b0.isLt; have := b1.isLt; have := b2.isLt; have := b3.isLt
  have := b4.isLt; have := b5.isLt; have := b6.isLt; have := b7.isLt
  rw [Header.len, BitVec.extractLsb'_toNat, Nat.shiftRight_eq_div_pow, headerOfBytes_toNat]
  omega

/-- The bytes a header was formed from are the bytes it is sent as. -/
@[simp] theorem headerBytes_headerOfBytes :
    headerBytes (headerOfBytes b0 b1 b2 b3 b4 b5 b6 b7) = [b0, b1, b2, b3, b4, b5, b6, b7] := by
  have hbyte := Machine.joined_byte b7 b6 b5 b4 b3 b2 b1 b0
  simp only [headerBytes, List.cons.injEq, and_true]
  exact ⟨hbyte 0 (by decide), hbyte 1 (by decide), hbyte 2 (by decide), hbyte 3 (by decide),
    hbyte 4 (by decide), hbyte 5 (by decide), hbyte 6 (by decide), hbyte 7 (by decide)⟩

end headerOfBytes

/-- Settles O1: each field is read off the header's number or its joined bytes. -/
theorem headerFieldsAreLittleEndian : Obligations.HeaderFieldsAreLittleEndian := by
  unfold Obligations.HeaderFieldsAreLittleEndian
  exact fun b0 b1 b2 b3 b4 b5 b6 b7 =>
    ⟨headerOfBytes_opc .., headerOfBytes_rsvd .., headerOfBytes_len .., headerBytes_headerOfBytes ..⟩

/-- What is cut off a stream stood at its head, and its payload is as long as its header says. -/
theorem eq_of_takeFrame_eq_some {wire rest : List Byte} {f : Frame} (h : takeFrame wire = some (f, rest)) :
    f.payload.length = f.hdr.len ∧ wire = headerBytes f.hdr ++ f.payload ++ rest := by
  unfold takeFrame at h
  split at h
  case h_1 b0 b1 b2 b3 b4 b5 b6 b7 body =>
    obtain ⟨hlen, heq⟩ := Option.ite_none_right_eq_some.mp h
    obtain ⟨rfl, rfl⟩ := Prod.mk.inj (Option.some.inj heq)
    exact ⟨List.length_take_of_le hlen, by simp⟩
  case h_2 => cases h

/-- Settles O2: `takeFrame` inverted one way, `takeFrame_frame` the other. -/
theorem framingIsExact : Obligations.FramingIsExact := by
  unfold Obligations.FramingIsExact
  refine fun wire rest f => ⟨eq_of_takeFrame_eq_some, ?_⟩
  rintro ⟨hlen, rfl⟩
  exact takeFrame_frame f.hdr f.payload rest hlen

/-- What the decoder accepts, one disjunct per command (R61). -/
theorem decode_eq_ok_iff (h : Header) (P : List Byte) (i : Instr) :
    decode h P = .ok i ↔
      h.rsvd = 0x00 ∧
        ((h.opc = 0x01 ∧ h.len = 0 ∧ i = .reset) ∨ (h.opc = 0x02 ∧ i = .write P) ∨
          (h.opc = 0x03 ∧ h.len = 0 ∧ i = .finalize) ∨ (h.opc = 0x04 ∧ i = .sum256 P)) := by
  unfold decode
  by_cases hr : h.rsvd = 0x00#8
  · by_cases h1 : h.opc = 0x01#8
    · by_cases hl : h.len = 0 <;> simp [hr, h1, hl, eq_comm]
    by_cases h2 : h.opc = 0x02#8
    · simp [hr, h2, eq_comm]
    by_cases h3 : h.opc = 0x03#8
    · by_cases hl : h.len = 0 <;> simp [hr, h3, hl, eq_comm]
    by_cases h4 : h.opc = 0x04#8
    · simp [hr, h4, eq_comm]
    · simp [hr, h1, h2, h3, h4]
  · simp [hr]

/-- Settles O7: the branches of the decoder, opcode by opcode. -/
theorem decoderAcceptsExactly : Obligations.DecoderAcceptsExactly := by
  unfold Obligations.DecoderAcceptsExactly
  exact decode_eq_ok_iff

/-- The three conditions of R59 on a header. -/
def IllegalHeader (h : Header) : Prop :=
  (h.opc = 0x00 ∨ 0x05 ≤ h.opc.toNat) ∨ h.rsvd ≠ 0x00 ∨ ((h.opc = 0x01 ∨ h.opc = 0x03) ∧ h.len ≠ 0)

/-- Such a header is rejected, since it meets none of the cases the decoder accepts. -/
theorem decode_eq_error_of_illegalHeader {h : Header} (P : List Byte) (hill : IllegalHeader h) :
    ∃ r, decode h P = .error r := by
  cases hd : decode h P with
  | error r => exact ⟨r, rfl⟩
  | ok i =>
    obtain ⟨hr, ⟨ho, hl, -⟩ | ⟨ho, -⟩ | ⟨ho, hl, -⟩ | ⟨ho, -⟩⟩ := (decode_eq_ok_iff h P i).mp hd
    · simp [IllegalHeader, hr, ho, hl] at hill
    · simp [IllegalHeader, hr, ho] at hill
    · simp [IllegalHeader, hr, ho, hl] at hill
    · simp [IllegalHeader, hr, ho] at hill

/-- Settles O5: the two encodings are evaluated; a nonzero `LEN` is the third condition of R59. -/
theorem resetAndFinalizeEncodings : Obligations.ResetAndFinalizeEncodings := by
  unfold Obligations.ResetAndFinalizeEncodings
  exact ⟨by decide, by decide, by decide, by decide,
    fun h P hop hlen => decode_eq_error_of_illegalHeader P (.inr (.inr ⟨hop, hlen⟩))⟩

/-- `HDR[15:0]` of an encoded command: the reserved byte, 0, above the operation code. -/
theorem encodeHeader_low16 (i : Instr) : (encodeHeader i).extractLsb' 0 16 = 0#8 ++ opcode i := by
  have hjoin : (encodeHeader i).rsvd ++ (encodeHeader i).opc = (encodeHeader i).extractLsb' 0 16 :=
    BitVec.extractLsb'_append_extractLsb'_eq_extractLsb' rfl
  rw [← hjoin, encodeHeader_rsvd, encodeHeader_opc]
  rfl

/-- Settles O6: the low half-word and the length field of any encoded command, and the two examples evaluated. -/
theorem writeAndSum256Encodings : Obligations.WriteAndSum256Encodings := by
  unfold Obligations.WriteAndSum256Encodings
  refine ⟨fun bytes hlen => ?_, by decide, by decide⟩
  exact ⟨(encodeHeader_low16 (.write bytes)).trans (by rw [opcode]; decide),
    encodeHeader_len (i := .write bytes) hlen, rfl,
    (encodeHeader_low16 (.sum256 bytes)).trans (by rw [opcode]; decide),
    encodeHeader_len (i := .sum256 bytes) hlen, rfl⟩

end Sys2Proof
end

section
/-!
What one instance makes of the command at the head of its queue (30_encoding.md R60; 60_exceptions.md R126).
-/

namespace Sys2Proof.Machine

section head
variable {f : Frame} {rest : List Byte}

/-- The step on a rejected command. -/
theorem step_of_decode_error {s : State} {r : Illegal} (hf : takeFrame s.cur.rx = some (f, rest))
    (hd : decode f.hdr f.payload = .error r) :
    step s = .next (passTurn (rejectCommand (consume s rest))) := by
  simp only [step, hf, hd]

/-- The step on an accepted command. -/
theorem step_of_decode_ok {s : State} {i : Instr} (hf : takeFrame s.cur.rx = some (f, rest))
    (hd : decode f.hdr f.payload = .ok i) :
    step s = .next (passTurn (complete (consume s rest) (engineAfter i s.cur.engine)
      (responseTo i s.cur.engine))) := by
  simp only [step, hf, hd, exec_eq, thenPassTurn_next, consume_engine]

/-- An instance's own move is the step of a machine that has no other. -/
theorem stepInstance_of_step {inst : Instance} {t : State}
    (hstep : step { cur := inst, others := [] } = .next (passTurn t)) (ht : t.others = []) :
    stepInstance inst = t.cur := by
  simp only [stepInstance, hstep, passTurn_alone ht]

/-- A rejected command: its bytes leave the queue and the response is sent. -/
theorem stepInstance_of_decode_error {inst : Instance} {r : Illegal} (hf : takeFrame inst.rx = some (f, rest))
    (hd : decode f.hdr f.payload = .error r) :
    stepInstance inst = { engine := inst.engine, rx := rest, tx := inst.tx ++ [.illegalCommand] } :=
  stepInstance_of_step (step_of_decode_error hf hd) rfl

/-- An accepted command: its bytes leave the queue, it takes effect, and its response is sent. -/
theorem stepInstance_of_decode_ok {inst : Instance} {i : Instr} (hf : takeFrame inst.rx = some (f, rest))
    (hd : decode f.hdr f.payload = .ok i) :
    stepInstance inst =
      { engine := engineAfter i inst.engine, rx := rest, tx := inst.tx ++ [responseTo i inst.engine] } :=
  stepInstance_of_step (step_of_decode_ok hf hd) rfl

end head

/-- Settles O10: a header that meets R59 is rejected, and a rejection has R126's effect. -/
theorem illegalCommandEffect : Obligations.IllegalCommandEffect := by
  unfold Obligations.IllegalCommandEffect
  intro inst f rest hf hill
  obtain ⟨r, hd⟩ := decode_eq_error_of_illegalHeader f.payload hill
  exact ⟨stepInstance_of_decode_error hf hd, rfl⟩

theorem responseBytes_okDigest_length (d : Digest) : (responseBytes (.okDigest d)).length = 33 := by
  simp [responseBytes]

/-- Settles O14: by what the decoder says of the command, and for an accepted one by its `responseTo`. -/
theorem oneResponsePerCommand : Obligations.OneResponsePerCommand := by
  unfold Obligations.OneResponsePerCommand
  intro inst f rest hf
  cases hd : decode f.hdr f.payload with
  | error reason =>
    rw [stepInstance_of_decode_error hf hd]
    exact ⟨.illegalCommand, rfl, rfl, nofun, nofun, nofun, nofun, fun _ _ => rfl⟩
  | ok i =>
    rw [stepInstance_of_decode_ok hf hd]
    refine ⟨responseTo i inst.engine, rfl, rfl, ?_, ?_, ?_, ?_, nofun⟩
    · rintro _ ⟨⟩
      exact exec_others i _ _
    · rintro _ ⟨⟩ (rfl | ⟨chunk, rfl⟩)
      · rfl
      · rfl
    · rintro ⟨⟩
      exact ⟨rfl, responseBytes_okDigest_length _⟩
    · rintro data ⟨⟩
      exact ⟨rfl, responseBytes_okDigest_length _⟩

end Sys2Proof.Machine
end

section
/-!
The pseudo-instruction `HASH` (30_encoding.md R66).
-/

namespace Sys2Proof.Machine

/-- A `WRITE` with nothing pending: whole blocks go into `S`, the rest to the front of `PB`. -/
theorem writeWork_of_PC_zero {e : Engine} (h : e.PC = 0) (chunk : List Byte) :
    writeWork e chunk =
      { S := absorbFrom e.S chunk, PB := putPending e.PB 0 (tailBytes chunk), pc := (tailBytes chunk).length,
        rest := [], perms := chunk.length / 136 } := by
  rw [writeWork, absorbPending_topUp_of_empty e chunk (by simp [h]), fastBlocks_closed]
  simp [writeStart, keepTail, tailBytes, h]

/-- A `WRITE` to an instance that holds the empty message leaves it holding the chunk. -/
theorem streamInv_writeEngine_of_empty {e : Engine} (hS : e.S = zero200) (hPC : e.PC = 0) (chunk : List Byte) :
    StreamInv (writeEngine e chunk) chunk := by
  have hwork := writeWork_of_PC_zero hPC chunk
  have hpc : (writeEngine e chunk).PC.val = (tailBytes chunk).length := by
    rw [writeEngine_PC_val, hwork]
  refine ⟨hpc.trans (tailBytes_length chunk), pendingBytes_eq_of_getElem hpc fun i hi => ?_, ?_⟩
  · simp only [writeEngine_PB, hwork, putPending_getElem]
    exact dif_pos ⟨Nat.zero_le i, hi⟩
  · rw [writeEngine_S, hwork, hS, absorbAll, absorbFrom_wholeBlocks]

/-- `SUM256`'s digest in closed form (42_oneshot.md R88). -/
theorem sum256Digest_eq (M : List Byte) :
    sum256Digest M = finish (absorbAll (wholeBlocks M)) (tailBytes M) := by
  rw [sum256Digest, sum256Loop, absorbBlocks_closed, absorbAll, absorbFrom_wholeBlocks, tailBytes]

/-- An instance that holds the message `M` finalizes to `SUM256`'s digest of `M`. -/
theorem finalizeDigest_of_streamInv {e : Engine} {M : List Byte} (h : StreamInv e M) :
    finalizeDigest e = sum256Digest M := by
  obtain ⟨-, hpending, hS⟩ := h
  rw [finalizeDigest, hpending, hS, sum256Digest_eq]

@[simp] theorem runCommands_nil (s : State) : runCommands [] s = .next s := rfl

/-- The engine a `HASH` leaves: the one reset and then given the bytes. -/
def hashEngine (e : Engine) (bytes : List Byte) : Engine := writeEngine (resetEngine e) bytes

theorem streamInv_hashEngine (e : Engine) (bytes : List Byte) : StreamInv (hashEngine e bytes) bytes :=
  streamInv_writeEngine_of_empty (resetEngine_S e) (resetEngine_PC e) bytes

/-- The three commands of a `HASH` in a row. -/
theorem runCommands_hash (b : BytesForm) (s : State) :
    runCommands (expandLine (.hash b)) s =
      .next (complete (complete (complete s (resetEngine s.cur.engine) .ok)
        (hashEngine s.cur.engine (bytesOf b)) .ok)
        (hashEngine s.cur.engine (bytesOf b)) (.okDigest (finalizeDigest (hashEngine s.cur.engine (bytesOf b))))) := by
  simp only [expandLine, runCommands_cons, runCommands_nil, engineAfter, responseTo, complete_engine, hashEngine]

/-- Settles O56: after its `WRITE` the instance holds the bytes, so its `FINALIZE` answers their digest. -/
theorem hashExpandsAndDigests : Obligations.HashExpandsAndDigests := by
  unfold Obligations.HashExpandsAndDigests
  intro b s
  have hinv := streamInv_hashEngine s.cur.engine (bytesOf b)
  refine ⟨rfl, _, runCommands_hash b s, hinv, ?_⟩
  simp [finalizeDigest_of_streamInv hinv]

end Sys2Proof.Machine
end

section
/-!
The absorption primitives (40_absorption.md R67 to R72).
-/

namespace Sys2Proof.Machine

/-- `AbsorbAll` goes on from the state its whole blocks led to (R72). -/
theorem absorbAll_append {A : List Byte} (B : List Byte) (hA : A.length % 136 = 0) :
    absorbAll (A ++ B) = absorbFrom (absorbAll A) B :=
  absorbFrom_append zero200 B hA

@[simp] theorem absorbAll_nil : absorbAll [] = zero200 :=
  absorbFrom_of_short zero200 (by decide)

/-- Settles O27: what `AbsorbAll` does with bytes after its whole blocks, for exactly one block more. -/
theorem absorbAllOneBlockAtATime : Obligations.AbsorbAllOneBlockAtATime := by
  unfold Obligations.AbsorbAllOneBlockAtATime
  refine ⟨fun X blk => rfl, absorbAll_nil, fun B blk hB hblk => ?_⟩
  rw [absorbAll_append blk hB, absorbFrom_one _ hblk]

/-- The corner case of R67: no index is below the length of the empty block. -/
@[simp] theorem absorbBlock_nil (X : Sponge) : absorbBlock X [] = X :=
  Vector.ext fun i hi => (absorbBlock_getElem X [] i hi).trans (dif_neg (Nat.not_lt_zero i))

/-- Absorbing a block is its own inverse, since XOR with a byte is (R67). -/
@[simp] theorem absorbBlock_absorbBlock_same (X : Sponge) (blk : List Byte) :
    absorbBlock (absorbBlock X blk) blk = X := by
  refine Vector.ext fun i hi => ?_
  rw [absorbBlock_getElem, absorbBlock_getElem]
  by_cases hlt : i < blk.length
  · rw [dif_pos hlt, dif_pos hlt, BitVec.xor_assoc, BitVec.xor_self, BitVec.xor_zero]
  · rw [dif_neg hlt, dif_neg hlt]

/-- Settles O19: the byte view of `absorbBlock`, and the two laws that follow from it. -/
theorem absorbBlockBytes : Obligations.AbsorbBlockBytes := by
  unfold Obligations.AbsorbBlockBytes
  exact ⟨absorbBlock_getElem, absorbBlock_nil, absorbBlock_absorbBlock_same⟩

end Sys2Proof.Machine
end

section
/-!
Padding, the final permutation and the squeeze (41_padding.md R75 to R79).
-/

namespace Sys2Proof.Machine

/-- `xorAt` as one XOR on every byte, with zero where it changes nothing, so that several of them chain. -/
theorem xorAt_getElem_eq_xor_ite (X : Sponge) (k : Nat) (b : Byte) (i : Nat) (hi : i < 200) :
    (xorAt X k b)[i] = X[i] ^^^ (if i = k then b else 0) := by
  rw [xorAt_getElem]
  split
  case isTrue => rfl
  case isFalse => exact BitVec.xor_zero.symm

/-- The two XORs of R75, for any end of the tail. -/
theorem pad_getElem (X : Sponge) (t i : Nat) (hi : i < 200) :
    (pad X t)[i] = X[i] ^^^ (if i = t then 0x01#8 else 0) ^^^ (if i = 135 then 0x80#8 else 0) := by
  rw [pad, xorAt_getElem_eq_xor_ite, xorAt_getElem_eq_xor_ite]
  rfl

/-- Both XORs hit the last byte of the rate, and combine there (R76). -/
theorem pad_135_getElem_135 (X : Sponge) : (pad X 135)[135] = X[135] ^^^ 0x81#8 := by
  have hbytes : (0x01#8 ^^^ 0x80#8 : Byte) = 0x81#8 := by decide
  rw [pad_getElem, if_pos rfl, if_pos rfl, BitVec.xor_assoc, hbytes]

/-- Settles O25: the byte view of `pad`, and its corner case where both XORs meet. -/
theorem paddingXors : Obligations.PaddingXors := by
  unfold Obligations.PaddingXors
  exact ⟨fun X t _ i hi => pad_getElem X t i hi, pad_135_getElem_135⟩

/-- A squeezed byte is the byte of the permuted state at the same place (R78). -/
@[simp] theorem squeeze_getElem (X : Sponge) (i : Nat) (hi : i < 32) : (squeeze X)[i] = (keccakF X)[i] :=
  digestOf_getElem (keccakF X) i hi

/-- Settles O26: `finish` squeezes the state that the tail was absorbed into and padded. -/
theorem finishPadsPermutesSqueezes : Obligations.FinishPadsPermutesSqueezes := by
  unfold Obligations.FinishPadsPermutesSqueezes
  intro X tail i hi
  rw [finish, squeeze_getElem]

end Sys2Proof.Machine
end

section
/-!
The one-shot command `SUM256` (42_oneshot.md R84 to R86).
-/

namespace Sys2Proof.Machine

/-- The absorb loop entered at state `T` with `rest` to go, and `finish` on the tail it leaves: `SUM256`'s digest from
any point of its run. -/
def digestFrom (T : Sponge) (rest : List Byte) : Digest :=
  finish (absorbBlocks { X := T, rest := rest, perms := 0 }).X (absorbBlocks { X := T, rest := rest, perms := 0 }).rest

/-- `SUM256` enters its loop once, at the all-zero state (R85). -/
theorem sum256Digest_eq_digestFrom (data : List Byte) : sum256Digest data = digestFrom zero200 data := rfl

/-- The loop takes the whole blocks; the tail is left for `finish`. -/
theorem digestFrom_eq_finish (T : Sponge) (rest : List Byte) :
    digestFrom T rest = finish (absorbFrom T rest) (tailBytes rest) := by
  rw [digestFrom, absorbBlocks_closed, tailBytes]

/-- The tail does not change when the first block is taken off. -/
theorem tailBytes_of_block {M : List Byte} (h : 136 ≤ M.length) : tailBytes M = tailBytes (M.drop 136) := by
  have hblk : (M.take 136).length % 136 = 0 := by rw [List.length_take_of_le h]
  rw [← tailBytes_append (M.drop 136) hblk, List.take_append_drop]

/-- One iteration of the loop (R84). -/
theorem digestFrom_of_block (T : Sponge) {rest : List Byte} (h : 136 ≤ rest.length) :
    digestFrom T rest = digestFrom (absorbPermute T (rest.take 136)) (rest.drop 136) := by
  rw [digestFrom_eq_finish, digestFrom_eq_finish, absorbFrom_of_block T h, tailBytes_of_block h]

/-- The loop's exit (R84). -/
theorem digestFrom_of_short (T : Sponge) {rest : List Byte} (h : rest.length < 136) :
    digestFrom T rest = finish T rest := by
  rw [digestFrom_eq_finish, absorbFrom_of_short T h, tailBytes_of_short h]

/-- `SUM256` only sends its response (R86). -/
theorem exec_sum256 (data : List Byte) (s : State) :
    exec (.sum256 data) s =
      .next { s with cur := { s.cur with tx := s.cur.tx ++ [.okDigest (digestFrom zero200 data)] } } := by
  rw [← sum256Digest_eq_digestFrom]
  exact exec_eq (.sum256 data) s

/-- Settles O33: the function is `digestFrom`, its two equations an iteration and the exit of the loop; the header's
fields are those of any encoded command. -/
theorem sum256RunsTheAbsorbLoop : Obligations.Sum256RunsTheAbsorbLoop := by
  unfold Obligations.Sum256RunsTheAbsorbLoop
  refine ⟨digestFrom, fun T rest h => digestFrom_of_block T h, fun T rest h => digestFrom_of_short T h, exec_sum256,
    fun _ => rfl, fun data hlen => ?_⟩
  exact ⟨encodeHeader_opc _, encodeHeader_rsvd _, encodeHeader_len (i := .sum256 data) hlen⟩

end Sys2Proof.Machine
end

section
/-!
The phase machine inside `WRITE` (43_streaming.md R102).
-/

namespace Sys2Proof.Machine

/-- Moves of the phase machine, any number of them, lead from `p` to `q`. -/
def PhaseReaches (p q : Phase × WriteWork) : Prop := ∃ k, phaseMove^[k] p = q

theorem phaseReaches_of_move {p q : Phase × WriteWork} (h : PhaseReaches (phaseMove p) q) : PhaseReaches p q := by
  obtain ⟨k, hk⟩ := h
  exact ⟨k + 1, hk⟩

/-- One iteration of the absorb loop leaves the loop's result as it is. -/
theorem absorbBlocks_of_block {a : Absorbing} (h : 136 ≤ a.rest.length) :
    absorbBlocks a = absorbBlocks (absorbNext a) := by
  have hdiv : a.rest.length / 136 = (a.rest.length - 136) / 136 + 1 := by omega
  simp [absorbBlocks_closed, absorbNext, absorbFrom_of_block a.X h, hdiv, List.drop_drop, Nat.mul_add, Nat.add_comm,
    Nat.add_assoc]

/-- One block of phase FAST. -/
def fastNext (w : WriteWork) : WriteWork :=
  { w with S := absorbPermute w.S (w.rest.take 136), rest := w.rest.drop 136, perms := w.perms + 1 }

theorem fastNext_rest_length_lt {w : WriteWork} (h : 136 ≤ w.rest.length) :
    (fastNext w).rest.length < w.rest.length := by
  simp only [fastNext, List.length_drop]
  omega

theorem fastBlocks_of_block {w : WriteWork} (h : 136 ≤ w.rest.length) : fastBlocks w = fastBlocks (fastNext w) := by
  rw [fastBlocks, absorbBlocks_of_block h]
  rfl

theorem fastBlocks_of_short {w : WriteWork} (h : w.rest.length < 136) : fastBlocks w = w := by
  rw [fastBlocks, absorbBlocks, absorbLoop_of_short _ _ h]

/-- The row TOPUP of the phase table. -/
theorem phaseMove_topUp {w : WriteWork} (h0 : 0 < w.pc) :
    phaseMove (.topUp, w) =
      (if w.pc + min (136 - w.pc) w.rest.length = 136 then .absorbPB else .tail,
        { w with PB := putPending w.PB w.pc (w.rest.take (min (136 - w.pc) w.rest.length)),
                 pc := w.pc + min (136 - w.pc) w.rest.length,
                 rest := w.rest.drop (min (136 - w.pc) w.rest.length) }) := by
  simp only [phaseMove, topUp, if_pos h0]

/-- TOPUP only adds to the pending bytes. -/
theorem topUp_pc_pos {w : WriteWork} (h0 : 0 < w.pc) : 0 < (topUp w).pc := by
  rw [topUp, if_pos h0]
  exact Nat.add_pos_left h0 _

/-- The row ABSORB_PB of the phase table. -/
theorem phaseMove_absorbPB {w : WriteWork} (h : w.pc = 136) :
    phaseMove (.absorbPB, w) =
      (.fast, { w with S := absorbPermute w.S w.PB.toList, pc := 0, perms := w.perms + 1 }) := by
  simp only [phaseMove, absorbPending, if_pos h]

/-- The row FAST of the phase table. -/
theorem phaseMove_fast (w : WriteWork) :
    phaseMove (.fast, w) = if 136 ≤ w.rest.length then (.fast, fastNext w) else (.tail, w) := rfl

theorem phaseReaches_idle_of_tail (w : WriteWork) : PhaseReaches (.tail, w) (.idle, keepTail w) := ⟨1, rfl⟩

/-- FAST, one block a move, then TAIL. -/
theorem phaseReaches_idle_of_fast (w : WriteWork) :
    PhaseReaches (.fast, w) (.idle, keepTail (fastBlocks w)) := by
  apply phaseReaches_of_move
  rw [phaseMove_fast]
  by_cases hb : 136 ≤ w.rest.length
  · rw [if_pos hb, fastBlocks_of_block hb]
    exact phaseReaches_idle_of_fast (fastNext w)
  · rw [if_neg hb, fastBlocks_of_short (by omega)]
    exact phaseReaches_idle_of_tail w
termination_by w.rest.length
decreasing_by exact fastNext_rest_length_lt hb

/-- TOPUP fills the buffer, and ABSORB_PB and FAST follow; or it uses the chunk up, and TAIL follows, where those two
phases have nothing to do. -/
theorem phaseReaches_idle_of_topUp (e : Engine) (chunk : List Byte) (h0 : 0 < e.PC.val) :
    PhaseReaches (.topUp, writeStart e chunk) (.idle, writeWork e chunk) := by
  apply phaseReaches_of_move
  rw [writeWork, phaseMove]
  by_cases hfull : (topUp (writeStart e chunk)).pc = 136
  · rw [if_pos hfull]
    exact phaseReaches_of_move (phaseReaches_idle_of_fast _)
  · have hskip : absorbPending (topUp (writeStart e chunk)) = topUp (writeStart e chunk) := by
      rw [absorbPending, if_neg hfull]
    have hrest : (topUp (writeStart e chunk)).rest = [] := by
      have hor := (pc_after_absorbPending e chunk).2
      rw [hskip] at hor
      exact hor.resolve_left (topUp_pc_pos h0).ne'
    rw [if_neg hfull, hskip, fastBlocks_of_short (by simp [hrest])]
    exact phaseReaches_idle_of_tail _

/-- The run of the phase machine for a whole `WRITE`. -/
theorem phaseReaches_writeWork (e : Engine) (chunk : List Byte) :
    PhaseReaches (firstPhase e, writeStart e chunk) (.idle, writeWork e chunk) := by
  rw [firstPhase]
  by_cases h0 : 0 < e.PC.val
  · rw [if_pos h0]
    exact phaseReaches_idle_of_topUp e chunk h0
  · rw [if_neg h0, writeWork, absorbPending_topUp_of_empty e chunk (by omega)]
    exact phaseReaches_idle_of_fast _

/-- Settles O36: the rows of the table one by one, and the run that ends in `writeWork`, from which the atomic `WRITE`
takes its engine. -/
theorem writeRefinesPhaseMachine : Obligations.WriteRefinesPhaseMachine := by
  unfold Obligations.WriteRefinesPhaseMachine
  refine ⟨fun e => rfl, fun w h0 _ => phaseMove_topUp h0, fun w h => phaseMove_absorbPB h, phaseMove_fast,
    fun w => rfl, fun chunk s => ?_, fun i s => ⟨_, exec_eq i s⟩⟩
  obtain ⟨k, hk⟩ := phaseReaches_writeWork s.cur.engine chunk
  exact ⟨k, _, _, hk, rfl, exec_eq (.write chunk) s, rfl, rfl, rfl⟩

end Sys2Proof.Machine
end

section
/-!
The stream contract (43_streaming.md R104, R105, R108): what `WRITE` does to any engine, and that every command keeps
the stream invariant.
-/

namespace Sys2Proof.Machine

/-- The bytes a `WRITE` has not absorbed yet: those in the buffer, then those left of the chunk. -/
def unabsorbed (w : WriteWork) : List Byte := w.PB.toList.take w.pc ++ w.rest

/-- Where a `WRITE` is heading from `w`: the state once all whole blocks are absorbed, and the bytes then left. Every
phase keeps it. -/
def writeTarget (w : WriteWork) : Sponge × List Byte := (absorbFrom w.S (unabsorbed w), tailBytes (unabsorbed w))

/-- Bytes put right after the first `n` of the buffer. -/
theorem putPending_toList_take (PB : Pending) {n : Nat} {bytes : List Byte} (h : n + bytes.length ≤ 136) :
    (putPending PB n bytes).toList.take (n + bytes.length) = PB.toList.take n ++ bytes := by
  apply List.ext_getElem
  · simp
    omega
  · intro i h1 _
    have hi : i < n + bytes.length := by
      rw [List.length_take] at h1
      omega
    rw [List.getElem_take, Vector.getElem_toList, putPending_getElem]
    by_cases hlt : i < n
    · rw [dif_neg (by omega), List.getElem_append_left (by simp; omega), List.getElem_take, Vector.getElem_toList]
    · rw [dif_pos (by omega), List.getElem_append_right (by simp; omega)]
      simp [show min n 136 = n by omega]

/-- TOPUP moves bytes from the chunk to the end of the buffer. -/
theorem unabsorbed_topUp {w : WriteWork} (h : w.pc ≤ 136) : unabsorbed (topUp w) = unabsorbed w := by
  rw [topUp]
  split
  case isFalse => rfl
  case isTrue =>
    have hput := putPending_toList_take w.PB (n := w.pc) (bytes := w.rest.take (min (136 - w.pc) w.rest.length))
      (by rw [List.length_take]; omega)
    rw [List.length_take_of_le (Nat.min_le_right _ _)] at hput
    simp only [unabsorbed, hput, List.append_assoc, List.take_append_drop]

theorem writeTarget_topUp {w : WriteWork} (h : w.pc ≤ 136) : writeTarget (topUp w) = writeTarget w := by
  have hS : (topUp w).S = w.S := by
    rw [topUp]
    split <;> rfl
  rw [writeTarget, unabsorbed_topUp h, hS, writeTarget]

/-- ABSORB_PB takes the first block. -/
theorem writeTarget_absorbPending (w : WriteWork) : writeTarget (absorbPending w) = writeTarget w := by
  rw [absorbPending]
  split
  case isFalse => rfl
  case isTrue hfull =>
    have hlen : w.PB.toList.length = 136 := Vector.length_toList
    have hbytes : unabsorbed w = w.PB.toList ++ w.rest := by
      rw [unabsorbed, List.take_of_length_le (by omega)]
    simp only [writeTarget, hbytes, absorbFrom_append _ _ (by omega : w.PB.toList.length % 136 = 0),
      absorbFrom_one _ hlen, tailBytes_append _ (by omega : w.PB.toList.length % 136 = 0)]
    simp [unabsorbed]

/-- Absorbing is over once less than a block is left. -/
theorem writeTarget_of_short {w : WriteWork} (h : (unabsorbed w).length < 136) :
    writeTarget w = (w.S, unabsorbed w) := by
  rw [writeTarget, absorbFrom_of_short _ h, tailBytes_of_short h]

/-- FAST takes all whole blocks, with an empty buffer; without bytes to take it does nothing. -/
theorem writeTarget_fastBlocks {w : WriteWork} (h : w.pc = 0 ∨ w.rest = []) :
    writeTarget (fastBlocks w) = writeTarget w := by
  obtain hpc | hrest := h
  · have hbytes : unabsorbed w = w.rest := by simp [unabsorbed, hpc]
    have hleft : unabsorbed (fastBlocks w) = tailBytes w.rest := by
      simp [unabsorbed, fastBlocks_closed, hpc, tailBytes]
    have hshort : (tailBytes w.rest).length < 136 := by rw [tailBytes_length]; omega
    rw [writeTarget_of_short (by rwa [hleft]), hleft, writeTarget, hbytes, fastBlocks_closed]
  · rw [fastBlocks_of_short (by simp [hrest])]

/-- TAIL moves what is left of the chunk to the end of the buffer. -/
theorem writeTarget_keepTail {w : WriteWork} (h : w.pc + w.rest.length ≤ 136) :
    writeTarget (keepTail w) = writeTarget w := by
  have hbytes : unabsorbed (keepTail w) = unabsorbed w := by
    simp only [unabsorbed, keepTail, putPending_toList_take w.PB h, List.append_nil]
  rw [writeTarget, hbytes, keepTail, writeTarget]

/-- All phases of a `WRITE` together. -/
theorem writeTarget_writeWork (e : Engine) (chunk : List Byte) :
    writeTarget (writeWork e chunk) = writeTarget (writeStart e chunk) := by
  have hstart : (writeStart e chunk).pc ≤ 136 := e.PC.isLt.le
  calc writeTarget (writeWork e chunk)
      = writeTarget (fastBlocks (absorbPending (topUp (writeStart e chunk)))) :=
        writeTarget_keepTail (writeWork_pc_lt e chunk).le
    _ = writeTarget (absorbPending (topUp (writeStart e chunk))) :=
        writeTarget_fastBlocks (pc_after_absorbPending e chunk).2
    _ = writeTarget (topUp (writeStart e chunk)) := writeTarget_absorbPending _
    _ = writeTarget (writeStart e chunk) := writeTarget_topUp hstart

/-- `WRITE` in closed form, from any engine: the pending bytes and the chunk are absorbed in whole blocks, and what is
left is pending. -/
theorem writeEngine_closed (e : Engine) (chunk : List Byte) :
    (writeEngine e chunk).S = absorbFrom e.S (pendingBytes e ++ chunk) ∧
      pendingBytes (writeEngine e chunk) = tailBytes (pendingBytes e ++ chunk) := by
  have hleft : unabsorbed (writeWork e chunk) = pendingBytes (writeEngine e chunk) := List.append_nil _
  have hshort : (unabsorbed (writeWork e chunk)).length < 136 := by
    rw [hleft, pendingBytes_length]
    exact (writeEngine e chunk).PC.isLt
  have htarget := writeTarget_writeWork e chunk
  rw [writeTarget_of_short hshort, hleft] at htarget
  exact Prod.mk.inj htarget

/-- The stream invariant without the parts that follow from the others. -/
theorem streamInv_iff (e : Engine) (M : List Byte) :
    StreamInv e M ↔ e.S = absorbAll M ∧ pendingBytes e = tailBytes M := by
  rw [StreamInv, absorbAll, absorbFrom_wholeBlocks, ← absorbAll]
  constructor
  · rintro ⟨-, hpending, hS⟩
    exact ⟨hS, hpending⟩
  · rintro ⟨hS, hpending⟩
    exact ⟨by rw [← pendingBytes_length, hpending, tailBytes_length], hpending, hS⟩

/-- An engine with `S` zero and nothing pending holds the empty message, whatever its `PB`. -/
theorem streamInv_nil {e : Engine} (hS : e.S = zero200) (hPC : e.PC = 0) : StreamInv e [] :=
  (streamInv_iff e []).mpr ⟨hS.trans absorbAll_nil.symm, pendingBytes_of_PC_zero hPC⟩

/-- `WRITE` appends its chunk to the message. -/
theorem streamInv_writeEngine {e : Engine} {M : List Byte} (h : StreamInv e M) (chunk : List Byte) :
    StreamInv (writeEngine e chunk) (M ++ chunk) := by
  obtain ⟨hS, hpending⟩ := (streamInv_iff e M).mp h
  obtain ⟨hS', hpending'⟩ := writeEngine_closed e chunk
  have hwhole : (wholeBlocks M).length % 136 = 0 := by rw [wholeBlocks_length]; omega
  have hsplit : M ++ chunk = wholeBlocks M ++ (tailBytes M ++ chunk) := by
    rw [← List.append_assoc, wholeBlocks_append_tailBytes]
  rw [streamInv_iff, hS', hpending', hS, hpending, hsplit]
  refine ⟨?_, (tailBytes_append _ hwhole).symm⟩
  rw [absorbAll_append _ hwhole, absorbAll, absorbAll, absorbFrom_wholeBlocks]

/-- Every command keeps the stream invariant, with the message that R104 says. -/
theorem streamInv_engineAfter {e : Engine} {M : List Byte} (h : StreamInv e M) (i : Instr) :
    StreamInv (engineAfter i e) (messageAfter M i) := by
  cases i with
  | reset => exact streamInv_nil (resetEngine_S e) (resetEngine_PC e)
  | write chunk => exact streamInv_writeEngine h chunk
  | finalize => exact h
  | sum256 data => exact h

/-- Any sequence of commands completes and keeps the stream invariant. -/
theorem runCommands_keeps_streamInv (cmds : List Instr) {s : State} {M : List Byte} (h : StreamInv s.cur.engine M) :
    ∃ t, runCommands cmds s = .next t ∧ StreamInv t.cur.engine (cmds.foldl messageAfter M) := by
  induction cmds generalizing s M with
  | nil => exact ⟨s, runCommands_nil s, h⟩
  | cons i cmds ih =>
    rw [runCommands_cons, List.foldl_cons]
    exact ih (streamInv_engineAfter h i)

/-- `FINALIZE` does what `SUM256` of the instance's message does. -/
theorem exec_finalize_eq_exec_sum256 {s : State} {M : List Byte} (h : StreamInv s.cur.engine M) :
    exec .finalize s = exec (.sum256 M) s := by
  simp only [exec_eq, engineAfter, responseTo, finalizeDigest_of_streamInv h]

/-- Settles O40: the commands keep the stream invariant, which the empty message meets at the start. -/
theorem finalizeEqualsSum256OfMessage : Obligations.FinalizeEqualsSum256OfMessage := by
  unfold Obligations.FinalizeEqualsSum256OfMessage
  intro cmds s hS hPC
  obtain ⟨t, hrun, hinv⟩ := runCommands_keeps_streamInv cmds (streamInv_nil hS hPC)
  exact ⟨t, hrun, exec_finalize_eq_exec_sum256 hinv⟩

end Sys2Proof.Machine
end

section
/-!
The results of `RESET` and `FINALIZE` (43_streaming.md R91, R99).
-/

namespace Sys2Proof.Machine

/-- Settles O29: the engine is `resetEngine`, the response `.ok`, and the encoding that of R55. -/
theorem resetResult : Obligations.ResetResult := by
  unfold Obligations.ResetResult
  obtain ⟨-, hencode, -⟩ := resetAndFinalizeEncodings
  exact fun s => ⟨exec_eq .reset s, rfl, hencode⟩

/-- Settles O32: the response is `finalizeDigest`, the engine stays, and the encoding is that of R56. -/
theorem finalizeResult : Obligations.FinalizeResult := by
  unfold Obligations.FinalizeResult
  obtain ⟨-, -, -, hencode, -⟩ := resetAndFinalizeEncodings
  exact fun s => ⟨finalizeDigest s.cur.engine, rfl, exec_eq .finalize s, rfl, hencode⟩

end Sys2Proof.Machine
end

section
/-!
Every command completes, and a rejected one leaves no trace (60_exceptions.md R125, R128).
-/

namespace Sys2Proof.Machine

/-- The first response byte of an accepted command is status `0x00`, its only byte or the one before a digest. -/
theorem responseBytes_responseTo_head? (i : Instr) (e : Engine) :
    (responseBytes (responseTo i e)).head? = some 0x00 := by
  cases i with
  | reset => rfl
  | write chunk => rfl
  | finalize => rfl
  | sum256 data => rfl

/-- Settles O12: `exec_eq` names the next state and its one response, whose status byte is `0x00`. -/
theorem everyCommandCompletes : Obligations.EveryCommandCompletes := by
  unfold Obligations.EveryCommandCompletes
  exact fun i s => ⟨_, _, exec_eq i s, complete_tx .., responseBytes_responseTo_head? i s.cur.engine⟩

/-- The instance that has sent `sent` before all its other responses. -/
def prependSent (sent : List Response) (inst : Instance) : Instance := { inst with tx := sent ++ inst.tx }

/-- With no whole command in its queue an instance stays as it is. -/
theorem stepInstance_of_takeFrame_none {inst : Instance} (hf : takeFrame inst.rx = none) :
    stepInstance inst = inst :=
  stepInstance_of_step (t := { cur := inst, others := [] }) (by simp only [step, hf]) rfl

/-- No move reads the responses already sent: it only adds after them (log 6). -/
theorem stepInstance_prependSent (sent : List Response) (inst : Instance) :
    stepInstance (prependSent sent inst) = prependSent sent (stepInstance inst) := by
  cases hf : takeFrame inst.rx with
  | none =>
    rw [stepInstance_of_takeFrame_none hf,
      stepInstance_of_takeFrame_none (inst := prependSent sent inst) hf]
  | some p =>
    obtain ⟨f, rest⟩ := p
    cases hd : decode f.hdr f.payload with
    | error r =>
      rw [stepInstance_of_decode_error hf hd,
        stepInstance_of_decode_error (inst := prependSent sent inst) hf hd]
      simp [prependSent]
    | ok i =>
      rw [stepInstance_of_decode_ok hf hd,
        stepInstance_of_decode_ok (inst := prependSent sent inst) hf hd]
      simp [prependSent]

/-- Nor does any number of moves: those of an instance that has sent `sent` are those of a silent one. -/
theorem iterate_stepInstance_eq_prependSent (k : Nat) (e : Engine) (rx : List Byte) (sent : List Response) :
    stepInstance^[k] { engine := e, rx := rx, tx := sent } =
      prependSent sent (stepInstance^[k] { engine := e, rx := rx, tx := [] }) := by
  have hiter := Function.Commute.iterate_left (stepInstance_prependSent sent) k
    { engine := e, rx := rx, tx := [] }
  simpa only [prependSent, List.append_nil] using hiter

/-- Settles O15: after the rejecting move both instances do as one silent instance does, with different responses
before its own. -/
theorem rejectedCommandLeavesNoTrace : Obligations.RejectedCommandLeavesNoTrace := by
  unfold Obligations.RejectedCommandLeavesNoTrace
  intro inst f rest reason k hf hd
  have hrejected := iterate_stepInstance_eq_prependSent k inst.engine rest (inst.tx ++ [.illegalCommand])
  have hneverSent := iterate_stepInstance_eq_prependSent k inst.engine rest inst.tx
  refine ⟨(stepInstance^[k] { engine := inst.engine, rx := rest, tx := [] }).tx, ?_⟩
  rw [Function.iterate_succ_apply, stepInstance_of_decode_error hf hd, hrejected, hneverSent]
  exact ⟨rfl, rfl, List.append_assoc .., rfl⟩

end Sys2Proof.Machine
end

section
/-!
Responses come back in command order (70_reset_and_hazards.md R149).
-/

namespace Sys2Proof.Machine

/-- The move on a whole command, accepted or not, takes it off the queue and appends one response. -/
theorem stepInstance_of_takeFrame_some {inst : Instance} {f : Frame} {rest : List Byte}
    (hf : takeFrame inst.rx = some (f, rest)) :
    (stepInstance inst).rx = rest ∧ ∃ r, (stepInstance inst).tx = inst.tx ++ [r] := by
  obtain ⟨r, hrx, htx, -⟩ := oneResponsePerCommand inst f rest hf
  exact ⟨hrx, r, htx⟩

/-- Settles O16, by induction on the commands in the queue: the first move answers the first command, and the moves
after it are those of the instance it leaves, which holds the other commands. -/
theorem responsesInCommandOrder : Obligations.ResponsesInCommandOrder := by
  unfold Obligations.ResponsesInCommandOrder
  intro fs rest inst hlen hrx
  induction fs generalizing inst with
  | nil => exact ⟨[], rfl, (List.append_nil _).symm, hrx, nofun⟩
  | cons f fs ih =>
    obtain ⟨hlenHead, hlenTail⟩ := List.forall_mem_cons.mp hlen
    have hhead : takeFrame inst.rx =
        some (f, (fs.map fun f => headerBytes f.hdr ++ f.payload).flatten ++ rest) := by
      rw [hrx, List.map_cons, List.flatten_cons, List.append_assoc]
      exact takeFrame_frame f.hdr f.payload _ hlenHead
    obtain ⟨hrxNext, r, htxNext⟩ := stepInstance_of_takeFrame_some hhead
    obtain ⟨rs, hcount, htx, hrxEnd, horder⟩ := ih (stepInstance inst) hlenTail hrxNext
    refine ⟨r :: rs, congrArg (· + 1) hcount, ?_, hrxEnd, ?_⟩
    · rw [List.length_cons, Function.iterate_succ_apply, htx, htxNext, List.append_assoc, List.singleton_append]
    · intro j g hj
      cases j with
      | zero =>
        obtain rfl : f = g := Option.some.inj hj
        exact ⟨r, _, hhead, rfl, htxNext⟩
      | succ j => exact horder j g hj

end Sys2Proof.Machine
end

section
/-!
The round trips of the wire format (30_encoding.md R53, R54, R61).
-/

namespace Sys2Proof

/-- The decoder reads a command back from its own header and payload. -/
theorem decode_encodeHeader {i : Instr} (h : WellFormed i) : decode (encodeHeader i) i.payload = .ok i := by
  have hopc := encodeHeader_opc i
  have hlen := encodeHeader_len h
  refine (decode_eq_ok_iff _ _ _).mpr ⟨encodeHeader_rsvd i, ?_⟩
  cases i with
  | reset => exact .inl ⟨hopc, hlen, rfl⟩
  | write chunk => exact .inr (.inl ⟨hopc, rfl⟩)
  | finalize => exact .inr (.inr (.inl ⟨hopc, hlen, rfl⟩))
  | sum256 data => exact .inr (.inr (.inr ⟨hopc, rfl⟩))

/-- The encoder's header says how long the payload is, so framing cuts the command off exactly. -/
theorem takeFrame_of_eq_encode_append {i : Instr} {wire rest : List Byte} (h : WellFormed i)
    (hwire : wire = encode i ++ rest) : takeFrame wire = some (⟨encodeHeader i, i.payload⟩, rest) := by
  rw [hwire, encode, takeFrame_frame _ _ rest (encodeHeader_len h).symm]

/-- Settles O3: framing cuts off the encoder's header and payload, and the decoder reads the command back. -/
theorem decodeEncodeRoundTrip : Obligations.DecodeEncodeRoundTrip := by
  unfold Obligations.DecodeEncodeRoundTrip
  exact fun i rest h => ⟨_, takeFrame_of_eq_encode_append h rfl, decode_encodeHeader h⟩

/-- A header is its three fields joined (R50). -/
theorem header_eq_append (h : Header) : h.extractLsb' 16 48 ++ h.rsvd ++ h.opc = h := by
  rw [Header.rsvd, Header.opc]
  simp (disch := rfl) only [BitVec.extractLsb'_append_extractLsb'_eq_extractLsb']
  simp

/-- The three fields determine a header. -/
theorem header_eq_of_fields {h g : Header} (hopc : h.opc = g.opc) (hrsvd : h.rsvd = g.rsvd) (hlen : h.len = g.len) :
    h = g := by
  have hfield : h.extractLsb' 16 48 = g.extractLsb' 16 48 := BitVec.eq_of_toNat_eq hlen
  rw [← header_eq_append h, ← header_eq_append g, hopc, hrsvd, hfield]

/-- An accepted header has the reserved field and operation code that its command is encoded with, and its payload is
the command's. -/
theorem fields_of_decode_eq_ok {h : Header} {P : List Byte} {i : Instr} (hlen : P.length = h.len)
    (hd : decode h P = .ok i) : h.rsvd = 0 ∧ h.opc = opcode i ∧ i.payload = P := by
  obtain ⟨hr, ⟨ho, hl, rfl⟩ | ⟨ho, rfl⟩ | ⟨ho, hl, rfl⟩ | ⟨ho, rfl⟩⟩ := (decode_eq_ok_iff h P i).mp hd
  · exact ⟨hr, ho, (List.length_eq_zero_iff.mp (hlen.trans hl)).symm⟩
  · exact ⟨hr, ho, rfl⟩
  · exact ⟨hr, ho, (List.length_eq_zero_iff.mp (hlen.trans hl)).symm⟩
  · exact ⟨hr, ho, rfl⟩

/-- Settles O4: the payload's length fits the header's field, and the header agrees with the encoder's in all three
fields. -/
theorem encodeDecodeRoundTrip : Obligations.EncodeDecodeRoundTrip := by
  unfold Obligations.EncodeDecodeRoundTrip
  intro h P i hlen hd
  obtain ⟨hrsvd, hopc, rfl⟩ := fields_of_decode_eq_ok hlen hd
  have hwf : WellFormed i := by
    rw [WellFormed, hlen]
    exact BitVec.isLt _
  have hheader : encodeHeader i = h :=
    header_eq_of_fields ((encodeHeader_opc i).trans hopc.symm) ((encodeHeader_rsvd i).trans hrsvd.symm)
      ((encodeHeader_len hwf).trans hlen)
  exact ⟨hwf, by rw [encode, hheader]⟩

/-- Settles O8: the seven words are closed, so the decoder runs on them. -/
theorem sampleWordsDecode : Obligations.SampleWordsDecode := by
  unfold Obligations.SampleWordsDecode
  exact ⟨rfl, rfl, rfl, rfl, rfl, rfl, rfl⟩

end Sys2Proof
end

section
/-!
The step, and that it touches one instance only (60_exceptions.md R142; 20_memory.md section 5).
-/

namespace Sys2Proof.Machine

/-- The step on an accepted command is that command's `exec`. -/
theorem step_eq_exec_of_decode_ok {s : State} {f : Frame} {rest : List Byte} {i : Instr}
    (hf : takeFrame s.cur.rx = some (f, rest)) (hd : decode f.hdr f.payload = .ok i) :
    step s = thenPassTurn (exec i (consume s rest)) := by
  rw [step_of_decode_ok hf hd, exec_eq, thenPassTurn_next, consume_engine]

/-- The step on the bytes of a well-formed command. -/
theorem step_of_encode {s : State} {i : Instr} {rest : List Byte} (h : WellFormed i)
    (hrx : s.cur.rx = encode i ++ rest) : step s = thenPassTurn (exec i (consume s rest)) :=
  step_eq_exec_of_decode_ok (takeFrame_of_eq_encode_append h hrx) (decode_encodeHeader h)

/-- Settles O9: the step runs what the decoder reads, and passing the turn rotates the instances by one. -/
theorem stepRunsDecodedInstruction : Obligations.StepRunsDecodedInstruction := by
  unfold Obligations.StepRunsDecodedInstruction
  refine ⟨fun s i rest h hrx => step_of_encode h hrx, fun t => ⟨thenPassTurn_next t, ?_⟩⟩
  rw [instances_passTurn, instances, List.rotate_cons_succ, List.rotate_zero]

/-- The step with no whole command in the queue. -/
theorem step_of_takeFrame_none {s : State} (hf : takeFrame s.cur.rx = none) : step s = .next (passTurn s) := by
  simp only [step, hf]

/-- Settles O11: such a step only passes the turn, which a single instance keeps. -/
theorem idleInstanceHoldsItsState : Obligations.IdleInstanceHoldsItsState := by
  unfold Obligations.IdleInstanceHoldsItsState
  intro s hf
  have hstep := step_of_takeFrame_none hf
  exact ⟨hstep, fun halone => by rw [hstep, passTurn_alone halone]⟩

theorem tablePayload_length (nbits w : Nat) : (tablePayload nbits w).length = (tableHeader nbits w).len := by
  simp [tablePayload]

/-- Settles O18: a table word's wire bytes are one whole command, which the step takes and leaves the old queue. -/
theorem tableWordIsNextCommand : Obligations.TableWordIsNextCommand := by
  unfold Obligations.TableWordIsNextCommand
  intro nbits w i s hword
  have hd : decode (tableHeader nbits w) (tablePayload nbits w) = .ok i := by
    rw [decodeTableWord] at hword
    split at hword
    case h_1 j hj => rw [hj, Option.some.inj hword]
    case h_2 => cases hword
  have hf : takeFrame (s.withFetchWord nbits w).cur.rx =
      some (⟨tableHeader nbits w, tablePayload nbits w⟩, s.cur.rx) :=
    takeFrame_frame _ _ _ (tablePayload_length nbits w)
  rw [step_eq_exec_of_decode_ok hf hd]
  rfl

/-- Every step is the own move of the instance whose turn it is, and then the turn passes. -/
theorem step_eq_stepInstance (s : State) : step s = .next (passTurn { s with cur := stepInstance s.cur }) := by
  cases hf : takeFrame s.cur.rx with
  | none => rw [step_of_takeFrame_none hf, stepInstance_of_takeFrame_none hf]
  | some p =>
    obtain ⟨f, rest⟩ := p
    cases hd : decode f.hdr f.payload with
    | error r => rw [step_of_decode_error hf hd, stepInstance_of_decode_error hf hd]; rfl
    | ok i => rw [step_of_decode_ok hf hd, stepInstance_of_decode_ok hf hd]; rfl

/-- A state is its list of instances. -/
theorem eq_of_instances_eq {s t : State} (h : instances s = instances t) : s = t := by
  obtain ⟨hcur, hothers⟩ := List.cons.inj h
  cases s
  cases t
  exact congrArg₂ State.mk hcur hothers

/-- Replacing two different entries of a list does not depend on the order. -/
theorem modify_comm_of_ne {α : Type} (f g : α → α) (l : List α) {j k : Nat} (hjk : j ≠ k) :
    (l.modify j f).modify k g = (l.modify k g).modify j f := by
  apply List.ext_getElem
  · simp
  · intro i _ _
    simp only [List.getElem_modify]
    by_cases hj : j = i
    · subst hj
      simp [hjk.symm]
    · simp [hj]

/-- Settles O49: the step is the move of one instance, and moves change different entries of the instance list. -/
theorem instancesAreIndependent : Obligations.InstancesAreIndependent := by
  unfold Obligations.InstancesAreIndependent
  refine ⟨step_eq_stepInstance, fun s j k hjk => eq_of_instances_eq ?_⟩
  simp only [instances_updateInstance]
  exact modify_comm_of_ne _ _ _ hjk

/-- Settles O13: the next state is the one the moving instance leads to. -/
theorem noStepStops : Obligations.NoStepStops := by
  unfold Obligations.NoStepStops
  exact fun s => ⟨_, step_eq_stepInstance s⟩

/-- A move only adds to the responses sent. -/
theorem stepInstance_tx_isPrefix (inst : Instance) : inst.tx <+: (stepInstance inst).tx := by
  cases hf : takeFrame inst.rx with
  | none => rw [stepInstance_of_takeFrame_none hf]
  | some p =>
    obtain ⟨-, r, htx⟩ := stepInstance_of_takeFrame_some hf
    exact ⟨[r], htx.symm⟩

/-- Settles O17: only the moving instance's responses change, and its move adds to them. -/
theorem sentResponsesNeverChange : Obligations.SentResponsesNeverChange := by
  unfold Obligations.SentResponsesNeverChange
  exact fun s => ⟨_, step_eq_stepInstance s, stepInstance_tx_isPrefix s.cur, rfl⟩

end Sys2Proof.Machine
end

section
/-!
The stream contract of whole runs, and the bytes that no run can observe (43_streaming.md sections 2 to 6; 10_state.md
R22).
-/

namespace Sys2Proof.Machine

/-- Settles O37: `streamInv_engineAfter` for the engine the command leaves. -/
theorem commandKeepsStreamInv : Obligations.CommandKeepsStreamInv := by
  unfold Obligations.CommandKeepsStreamInv
  exact fun i s M h => ⟨_, exec_eq i s, streamInv_engineAfter h i⟩

/-- A move keeps that the instance holds some message: only an accepted command changes its engine. -/
theorem stepInstance_keeps_stream {inst : Instance} (h : ∃ M, StreamInv inst.engine M) :
    ∃ M, StreamInv (stepInstance inst).engine M := by
  cases hf : takeFrame inst.rx with
  | none => rwa [stepInstance_of_takeFrame_none hf]
  | some p =>
    obtain ⟨f, rest⟩ := p
    cases hd : decode f.hdr f.payload with
    | error r => rwa [stepInstance_of_decode_error hf hd]
    | ok i =>
      obtain ⟨M, hM⟩ := h
      rw [stepInstance_of_decode_ok hf hd]
      exact ⟨messageAfter M i, streamInv_engineAfter hM i⟩

/-- Settles O38: the moving instance keeps its stream, the others stay, and passing the turn changes none. -/
theorem stepKeepsAllStreams : Obligations.StepKeepsAllStreams := by
  unfold Obligations.StepKeepsAllStreams
  intro s t h hstep
  obtain rfl := Host.Outcome.next.inj ((step_eq_stepInstance s).symm.trans hstep)
  intro inst hinst
  obtain rfl | hother := List.mem_cons.mp ((mem_instances_passTurn _ _).mp hinst)
  · exact stepInstance_keeps_stream (h s.cur List.mem_cons_self)
  · exact h inst (List.mem_cons_of_mem _ hother)

/-- Settles O39: a fresh engine has `S` zero and `PC` 0, and there are only fresh ones after power-on. -/
theorem powerOnHoldsEmptyMessage : Obligations.PowerOnHoldsEmptyMessage := by
  unfold Obligations.PowerOnHoldsEmptyMessage
  have hfresh (n : Nat) (inst : Instance) (hinst : inst ∈ instances (State.powerOn n)) :
      StreamInv inst.engine [] := by
    obtain rfl := (mem_instances_powerOn n inst).mp hinst
    exact streamInv_nil fresh_S fresh_PC
  exact ⟨hfresh, fun inst hinst => ⟨[], hfresh 0 inst hinst⟩⟩

/-- Settles O41: the instance holds the message, so the digest is `SUM256`'s in its closed form. -/
theorem finalizeDigestOfMessage : Obligations.FinalizeDigestOfMessage := by
  unfold Obligations.FinalizeDigestOfMessage
  intro cmds s hS hPC
  obtain ⟨t, hrun, hinv⟩ := runCommands_keeps_streamInv cmds (streamInv_nil hS hPC)
  have hdigest : finalizeDigest t.cur.engine =
      finish (absorbAll (wholeBlocks (messageOf cmds))) (tailBytes (messageOf cmds)) :=
    (finalizeDigest_of_streamInv hinv).trans (sum256Digest_eq _)
  exact ⟨t, hrun, by rw [← hdigest]; exact exec_eq .finalize t⟩

/-- Settles O34: the response is the closed form of `SUM256`'s digest. -/
theorem sum256Result : Obligations.Sum256Result := by
  unfold Obligations.Sum256Result
  intro data s
  rw [← sum256Digest_eq]
  exact exec_eq (.sum256 data) s

/-! ### What a run of commands leaves and answers -/

/-- The engine a list of commands leaves. -/
def engineAfterAll (cmds : List Instr) (e : Engine) : Engine := cmds.foldl (fun e i => engineAfter i e) e

/-- The responses a list of commands gets, in order. -/
def responsesTo : List Instr → Engine → List Response
  | [], _ => []
  | i :: cmds, e => responseTo i e :: responsesTo cmds (engineAfter i e)

/-- Everything a run of commands does: it changes the executing instance's engine, appends one response per command to
those sent, and changes nothing else. -/
theorem runCommands_eq (cmds : List Instr) (s : State) :
    runCommands cmds s = .next { s with cur := { s.cur with
      engine := engineAfterAll cmds s.cur.engine, tx := s.cur.tx ++ responsesTo cmds s.cur.engine } } := by
  induction cmds generalizing s with
  | nil => rw [runCommands_nil, engineAfterAll, responsesTo, List.foldl_nil, List.append_nil]
  | cons i cmds ih =>
    rw [runCommands_cons, ih, complete_tx, List.append_assoc]
    rfl

/-- Settles O43: the instance holds `a` at the first `FINALIZE` and `a ++ b` at the second. -/
theorem writeAfterFinalizeContinues : Obligations.WriteAfterFinalizeContinues := by
  unfold Obligations.WriteAfterFinalizeContinues
  intro a b s hS hPC
  have ha : StreamInv (writeEngine s.cur.engine a) a := streamInv_writeEngine_of_empty hS hPC a
  have hab := streamInv_writeEngine ha b
  rw [← finalizeDigest_of_streamInv ha, ← finalizeDigest_of_streamInv hab]
  exact ⟨_, runCommands_eq _ s, rfl⟩

/-- Settles O45: after `RESET` and `WRITE b` the instance holds `b`, whatever it held before. -/
theorem resetDiscardsMessage : Obligations.ResetDiscardsMessage := by
  unfold Obligations.ResetDiscardsMessage
  intro a b s
  rw [← finalizeDigest_of_streamInv (streamInv_hashEngine (writeEngine s.cur.engine a) b)]
  exact ⟨_, runCommands_eq _ s, rfl⟩

/-- Settles O44: `FINALIZE` and `SUM256` leave the engine, which determines the digest. -/
theorem finalizeIsRepeatable : Obligations.FinalizeIsRepeatable := by
  unfold Obligations.FinalizeIsRepeatable
  exact ⟨fun s => ⟨_, finalizeDigest s.cur.engine, runCommands_eq _ s, rfl, rfl⟩,
    fun data s => ⟨_, finalizeDigest s.cur.engine, runCommands_eq _ s, rfl, rfl⟩⟩

/-! ### What can be observed of an engine -/

/-- `PC` is the number of the pending bytes, so `S` and those bytes are all that can be observed. -/
theorem sameVisible_iff (e e' : Engine) : SameVisible e e' ↔ e.S = e'.S ∧ pendingBytes e = pendingBytes e' := by
  refine ⟨fun ⟨hS, _, hpending⟩ => ⟨hS, hpending⟩, fun ⟨hS, hpending⟩ => ⟨hS, ?_, hpending⟩⟩
  exact Fin.ext (by rw [← pendingBytes_length, hpending, pendingBytes_length])

theorem SameVisible.trans {e₁ e₂ e₃ : Engine} (h : SameVisible e₁ e₂) (h' : SameVisible e₂ e₃) : SameVisible e₁ e₃ := by
  obtain ⟨hS, hPC, hpending⟩ := h
  obtain ⟨hS', hPC', hpending'⟩ := h'
  exact ⟨hS.trans hS', hPC.trans hPC', hpending.trans hpending'⟩

theorem SameVisible.symm {e e' : Engine} (h : SameVisible e e') : SameVisible e' e := by
  obtain ⟨hS, hPC, hpending⟩ := h
  exact ⟨hS.symm, hPC.symm, hpending.symm⟩

/-- `WRITE` reads only what can be observed, by its closed form. -/
theorem sameVisible_writeEngine {e e' : Engine} (h : SameVisible e e') (chunk : List Byte) :
    SameVisible (writeEngine e chunk) (writeEngine e' chunk) := by
  obtain ⟨hS, -, hpending⟩ := h
  obtain ⟨hS₁, hpending₁⟩ := writeEngine_closed e chunk
  obtain ⟨hS₂, hpending₂⟩ := writeEngine_closed e' chunk
  rw [sameVisible_iff, hS₁, hS₂, hpending₁, hpending₂, hS, hpending]
  exact ⟨rfl, rfl⟩

/-- No command makes engines differ visibly that did not before. -/
theorem sameVisible_engineAfter {e e' : Engine} (h : SameVisible e e') (i : Instr) :
    SameVisible (engineAfter i e) (engineAfter i e') := by
  cases i with
  | reset => exact (sameVisible_iff _ _).mpr ⟨rfl, by simp [engineAfter]⟩
  | write chunk => exact sameVisible_writeEngine h chunk
  | finalize => exact h
  | sum256 data => exact h

/-- `FINALIZE` reads only what can be observed. -/
theorem finalizeDigest_congr {e e' : Engine} (h : SameVisible e e') : finalizeDigest e = finalizeDigest e' := by
  obtain ⟨hS, -, hpending⟩ := h
  rw [finalizeDigest, finalizeDigest, hS, hpending]

/-- Every command gets the same response from engines that look alike. -/
theorem responseTo_congr {e e' : Engine} (h : SameVisible e e') (i : Instr) : responseTo i e = responseTo i e' := by
  cases i with
  | reset => rfl
  | write chunk => rfl
  | finalize => exact congrArg Response.okDigest (finalizeDigest_congr h)
  | sum256 data => rfl

/-- Nor do any number of commands, one after the other. -/
theorem sameVisible_engineAfterAll {e e' : Engine} (h : SameVisible e e') (cmds : List Instr) :
    SameVisible (engineAfterAll cmds e) (engineAfterAll cmds e') := by
  induction cmds generalizing e e' with
  | nil => exact h
  | cons i cmds ih => exact ih (sameVisible_engineAfter h i)

/-- They all get the same responses. -/
theorem responsesTo_congr {e e' : Engine} (h : SameVisible e e') (cmds : List Instr) :
    responsesTo cmds e = responsesTo cmds e' := by
  induction cmds generalizing e e' with
  | nil => rfl
  | cons i cmds ih => exact congrArg₂ List.cons (responseTo_congr h i) (ih (sameVisible_engineAfter h i))

/-- Settles O47: engines that look alike go on looking alike, and get the same responses. -/
theorem pendingTailUnobservable : Obligations.PendingTailUnobservable := by
  unfold Obligations.PendingTailUnobservable
  intro cmds s s' h htx
  exact ⟨_, _, runCommands_eq cmds s, runCommands_eq cmds s', congrArg₂ (· ++ ·) htx (responsesTo_congr h cmds),
    sameVisible_engineAfterAll h cmds⟩

/-- Settles O46: the engine `RESET` leaves and the new one look alike, so no sequence of commands tells them apart. -/
theorem resetActsLikeFresh : Obligations.ResetActsLikeFresh := by
  unfold Obligations.ResetActsLikeFresh
  intro cmds s new hS hPC
  have hlook : SameVisible (resetEngine s.cur.engine) new :=
    (sameVisible_iff _ _).mpr ⟨hS.symm, by rw [pendingBytes_resetEngine, pendingBytes_of_PC_zero hPC]⟩
  obtain ⟨t, u, ht, hu, htx, hend⟩ := pendingTailUnobservable cmds
    (complete s (resetEngine s.cur.engine) .ok) (complete s new .ok) hlook rfl
  exact ⟨_, t, u, exec_eq .reset s, ht, hu, htx, hend⟩

/-- `WRITE` of the empty chunk changes nothing observable, since the pending bytes are less than a block. -/
theorem sameVisible_writeEngine_nil (e : Engine) : SameVisible (writeEngine e []) e := by
  have hshort : (pendingBytes e).length < 136 := by rw [pendingBytes_length]; exact e.PC.isLt
  obtain ⟨hS, hpending⟩ := writeEngine_closed e []
  rw [sameVisible_iff, hS, hpending, List.append_nil, absorbFrom_of_short _ hshort, tailBytes_of_short hshort]
  exact ⟨rfl, rfl⟩

/-- Two `WRITE` commands in a row look like one of both chunks: the first leaves a tail that the second absorbs with its
own bytes. -/
theorem sameVisible_writeEngine_append (e : Engine) (a b : List Byte) :
    SameVisible (writeEngine (writeEngine e a) b) (writeEngine e (a ++ b)) := by
  obtain ⟨hSa, hpendinga⟩ := writeEngine_closed e a
  obtain ⟨hSb, hpendingb⟩ := writeEngine_closed (writeEngine e a) b
  obtain ⟨hSab, hpendingab⟩ := writeEngine_closed e (a ++ b)
  have hwhole : (wholeBlocks (pendingBytes e ++ a)).length % 136 = 0 := by rw [wholeBlocks_length]; omega
  have hsplit : pendingBytes e ++ (a ++ b) =
      wholeBlocks (pendingBytes e ++ a) ++ (tailBytes (pendingBytes e ++ a) ++ b) := by
    rw [← List.append_assoc, ← List.append_assoc, wholeBlocks_append_tailBytes]
  rw [sameVisible_iff, hSb, hpendingb, hSab, hpendingab, hSa, hpendinga, hsplit, absorbFrom_append _ _ hwhole,
    absorbFrom_wholeBlocks, tailBytes_append _ hwhole]
  exact ⟨rfl, rfl⟩

/-- A sequence of `WRITE` commands looks like one of all the bytes. -/
theorem sameVisible_engineAfterAll_write (cs : List (List Byte)) (e : Engine) :
    SameVisible (engineAfterAll (cs.map Instr.write) e) (writeEngine e cs.flatten) := by
  induction cs generalizing e with
  | nil => exact (sameVisible_writeEngine_nil e).symm
  | cons c cs ih => exact (ih (writeEngine e c)).trans (sameVisible_writeEngine_append e c cs.flatten)

/-- Settles O42: both sequences look like one `WRITE` of the same bytes, and the digest is read off what can be
observed. -/
theorem chunkInvariance : Obligations.ChunkInvariance := by
  unfold Obligations.ChunkInvariance
  intro s cs ds hflat
  have hlook : SameVisible (engineAfterAll (cs.map Instr.write) s.cur.engine)
      (engineAfterAll (ds.map Instr.write) s.cur.engine) :=
    (sameVisible_engineAfterAll_write cs _).trans (hflat ▸ (sameVisible_engineAfterAll_write ds _).symm)
  refine ⟨_, _, finalizeDigest (engineAfterAll (cs.map Instr.write) s.cur.engine), runCommands_eq _ s,
    runCommands_eq _ s, hlook, exec_eq .finalize _, ?_⟩
  rw [finalizeDigest_congr hlook]
  exact exec_eq .finalize _

end Sys2Proof.Machine
end

section
/-!
Runs of a system of any number of instances, the host's moves, and the wire bytes of an assembled program
(20_memory.md section 5; 60_exceptions.md section 4; 30_encoding.md sections 2 to 7).
-/

namespace Sys2Proof.Machine

/-- A part of a round: one turn for each of the first instances, which have then moved once and stand last. -/
theorem runSteps_of_instances_eq_append (todo done : List Instance) (s : State) (h : instances s = todo ++ done) :
    ∃ t, runSteps todo.length s = .next t ∧ instances t = done ++ todo.map stepInstance := by
  induction todo generalizing done s with
  | nil => exact ⟨s, runSteps_zero s, by rw [h, List.nil_append, List.map_nil, List.append_nil]⟩
  | cons inst todo ih =>
    obtain ⟨hcur, hothers⟩ : s.cur = inst ∧ s.others = todo ++ done := List.cons.inj h
    have hturn : instances (passTurn { s with cur := stepInstance s.cur }) = todo ++ (done ++ [stepInstance inst]) := by
      rw [instances_passTurn, hothers, hcur, List.append_assoc]
    obtain ⟨t, hrun, ht⟩ := ih _ _ hturn
    refine ⟨t, ?_, by rw [ht, List.append_assoc, List.map_cons, List.singleton_append]⟩
    rw [List.length_cons, runSteps_succ_of_step (step_eq_stepInstance s), hrun]

/-- A whole round: every instance has moved once, and it is the first one's turn again. -/
theorem runSteps_round (s : State) :
    runSteps (instances s).length s = .next { cur := stepInstance s.cur, others := s.others.map stepInstance } := by
  obtain ⟨t, hrun, ht⟩ := runSteps_of_instances_eq_append (instances s) [] s (List.append_nil _).symm
  rw [hrun, eq_of_instances_eq (t := { cur := stepInstance s.cur, others := s.others.map stepInstance }) ht]

/-- Steps after steps. -/
theorem runSteps_add {j : Nat} {s t : State} (h : runSteps j s = .next t) (k : Nat) :
    runSteps (j + k) s = runSteps k t := by
  induction j generalizing s with
  | zero =>
    obtain rfl := Host.Outcome.next.inj h
    rw [Nat.zero_add]
  | succ j ih =>
    rw [runSteps_succ_of_step (step_eq_stepInstance s)] at h
    rw [Nat.add_right_comm, runSteps_succ_of_step (step_eq_stepInstance s), ih h]

/-- Settles O50, by induction on the rounds: each is one more move for every instance. -/
theorem roundsRunEachInstanceAlone : Obligations.RoundsRunEachInstanceAlone := by
  unfold Obligations.RoundsRunEachInstanceAlone
  intro k
  induction k with
  | zero => intro s; simp
  | succ k ih =>
    intro s
    have hround := ih { cur := stepInstance s.cur, others := s.others.map stepInstance }
    have hlen : (instances { cur := stepInstance s.cur, others := s.others.map stepInstance }).length =
        (instances s).length := by simp [instances]
    rw [hlen] at hround
    rw [Nat.succ_mul, Nat.add_comm, runSteps_add (runSteps_round s), hround, List.map_map]
    rfl

/-! ### The host's moves -/

/-- When the host can send a command, and what that changes. -/
theorem hostIssue_eq_some_iff {k : Nat} {wire : List Byte} {s t : State} :
    hostIssue k wire s = some t ↔
      (∃ inst, (instances s)[k]? = some inst ∧ inst.rx = []) ∧ isOneCommand wire = true ∧
        t = updateInstance s k fun i => { i with rx := wire } := by
  rw [hostIssue]
  cases (instances s)[k]? with
  | none => simp
  | some inst => simp [and_assoc, eq_comm (a := t)]

/-- Settles O52: an unanswered command is a queue that is not empty, and a move replaces one entry of the instance
list. -/
theorem hostWaitsForAnswer : Obligations.HostWaitsForAnswer := by
  unfold Obligations.HostWaitsForAnswer
  constructor
  · intro k wire s inst hinst hbusy
    refine Option.eq_none_iff_forall_ne_some.mpr fun t ht => ?_
    obtain ⟨⟨inst', hinst', hidle⟩, -, -⟩ := hostIssue_eq_some_iff.mp ht
    obtain rfl : inst = inst' := Option.some.inj (hinst.symm.trans hinst')
    exact hbusy hidle
  · intro k wire s t ht
    obtain ⟨-, hone, rfl⟩ := hostIssue_eq_some_iff.mp ht
    exact ⟨hone, instances_updateInstance s k _⟩

theorem isOneCommand_encode {i : Instr} (h : WellFormed i) : isOneCommand (encode i) = true := by
  rw [isOneCommand, takeFrame_of_eq_encode_append h (List.append_nil _).symm]

/-- The instance of index `k` has its turn after `k` steps, unchanged till then. -/
theorem runSteps_index {k : Nat} {s : State} {inst : Instance} (h : (instances s)[k]? = some inst) :
    ∃ u, runSteps k s = .next u ∧ u.cur = inst := by
  obtain ⟨hk, hget⟩ := List.getElem?_eq_some_iff.mp h
  obtain ⟨u, hrun, hu⟩ := runSteps_of_instances_eq_append ((instances s).take k) ((instances s).drop k) s
    (List.take_append_drop k _).symm
  rw [List.length_take_of_le hk.le] at hrun
  rw [List.drop_eq_getElem_cons hk, hget, List.cons_append] at hu
  exact ⟨u, hrun, (List.cons.inj hu).1⟩

/-- Settles O53: the issued command waits in its queue until the turn comes round, and the step then runs it. -/
theorem issuedCommandIsExecuted : Obligations.IssuedCommandIsExecuted := by
  unfold Obligations.IssuedCommandIsExecuted
  intro k i s inst hwf hinst hidle
  have hissue := hostIssue_eq_some_iff.mpr ⟨⟨inst, hinst, hidle⟩, isOneCommand_encode hwf, rfl⟩
  have hset : instances (updateInstance s k fun j => { j with rx := encode i }) =
      (instances s).set k { inst with rx := encode i } := by
    rw [instances_updateInstance, List.modify_eq_set_getElem?, hinst]
    rfl
  obtain ⟨hk, -⟩ := List.getElem?_eq_some_iff.mp hinst
  obtain ⟨u, hrun, hu⟩ := runSteps_index (hset ▸ List.getElem?_set_self hk)
  refine ⟨_, u, hissue, hset, hrun, hu, ?_⟩
  rw [step_of_encode (rest := []) hwf (by rw [hu, List.append_nil]), consume, hu, ← hidle]

/-- Settles O54: the new instance is appended to the system's others, as it is after power-on. -/
theorem createdInstanceIsFresh : Obligations.CreatedInstanceIsFresh := by
  unfold Obligations.CreatedInstanceIsFresh
  exact fun s => (List.cons_append).symm

/-! ### Programs on the wire -/

/-- A program has wire bytes if every payload fits the length field, and they are its commands' in order. -/
theorem assemble_eq_some_iff {lines : List AsmLine} {wire : List Byte} :
    assemble lines = some wire ↔
      (∀ i ∈ expandProgram lines, WellFormed i) ∧ ((expandProgram lines).map encode).flatten = wire := by
  rw [assemble, Option.ite_none_right_eq_some, Option.some.injEq, List.all_eq_true]
  simp only [decide_eq_true_eq]

/-- The wire bytes of well-formed commands, one move each, do what the commands do in order. -/
theorem runCommands_of_wire (cmds : List Instr) (hwf : ∀ i ∈ cmds, WellFormed i) (s : State) (rest : List Byte)
    (hrx : s.cur.rx = (cmds.map encode).flatten ++ rest) :
    runCommands cmds (consume s rest) = .next { s with cur := stepInstance^[cmds.length] s.cur } := by
  induction cmds generalizing s with
  | nil =>
    obtain rfl : s.cur.rx = rest := hrx
    rfl
  | cons i cmds ih =>
    obtain ⟨hi, hcmds⟩ := List.forall_mem_cons.mp hwf
    rw [List.map_cons, List.flatten_cons, List.append_assoc] at hrx
    have hmove := stepInstance_of_decode_ok (takeFrame_of_eq_encode_append hi hrx) (decode_encodeHeader hi)
    have hrest := ih hcmds { s with cur := stepInstance s.cur } (by rw [hmove])
    rw [runCommands_cons, List.length_cons, Function.iterate_succ_apply, ← hrest, hmove]
    rfl

/-- Settles O57: each command is one move of the instance, and a machine of one instance makes one move a step. -/
theorem wireProgramRunsItsCommands : Obligations.WireProgramRunsItsCommands := by
  unfold Obligations.WireProgramRunsItsCommands
  intro lines wire s hasm hrx
  obtain ⟨hwf, hwire⟩ := assemble_eq_some_iff.mp hasm
  have hrun := runCommands_of_wire (expandProgram lines) hwf s [] (by rw [hrx, hwire, List.append_nil])
  refine ⟨_, hrun, rfl, rfl, fun halone => ?_⟩
  have hrounds := roundsRunEachInstanceAlone (expandProgram lines).length s
  simpa [instances, halone] using hrounds

end Sys2Proof.Machine
end

section
/-!
`WRITE` byte by byte, and the permutation counts (43_streaming.md section 3; 70_reset_and_hazards.md section 4).
-/

namespace Sys2Proof.Machine

/-- A `WRITE` that completes no block puts the chunk after the pending bytes. -/
theorem writeWork_of_short (e : Engine) (chunk : List Byte) (h : e.PC.val + chunk.length < 136) :
    writeWork e chunk =
      { S := e.S, PB := putPending e.PB e.PC.val chunk, pc := e.PC.val + chunk.length, rest := [], perms := 0 } := by
  by_cases h0 : 0 < e.PC.val
  · rw [writeWork, absorbPending_topUp_of_short e chunk h0 h, fastBlocks_of_short (by simp)]
    simp [keepTail]
  · rw [writeWork, absorbPending_topUp_of_empty e chunk (by omega), fastBlocks_of_short (by simp [writeStart]; omega)]
    rfl

/-- A `WRITE` that tops the buffer up absorbs it, then the whole blocks left, and keeps the rest at the front of
`PB`. -/
theorem writeWork_of_full (e : Engine) (chunk : List Byte) (h0 : 0 < e.PC.val)
    (h : 136 ≤ e.PC.val + chunk.length) :
    writeWork e chunk =
      { S := absorbFrom (absorbPermute e.S (pendingBytes e ++ chunk.take (136 - e.PC.val)))
          (chunk.drop (136 - e.PC.val)),
        PB := putPending (putPending e.PB e.PC.val (chunk.take (136 - e.PC.val))) 0
          (tailBytes (chunk.drop (136 - e.PC.val))),
        pc := (tailBytes (chunk.drop (136 - e.PC.val))).length, rest := [],
        perms := 1 + (chunk.drop (136 - e.PC.val)).length / 136 } := by
  rw [writeWork, absorbPending_topUp_of_full e chunk h0 h, fastBlocks_closed]
  simp only [keepTail, tailBytes, Nat.zero_add]

/-- `WRITE` applies one permutation per block completed. -/
theorem writeWork_perms (e : Engine) (chunk : List Byte) :
    (writeWork e chunk).perms = (e.PC.val + chunk.length) / 136 := by
  by_cases hshort : e.PC.val + chunk.length < 136
  · rw [writeWork_of_short e chunk hshort, Nat.div_eq_of_lt hshort]
  by_cases h0 : 0 < e.PC.val
  · rw [writeWork_of_full e chunk h0 (by omega)]
    simp only [List.length_drop]
    have := e.PC.isLt
    omega
  · have hPC : e.PC.val = 0 := by omega
    rw [writeWork_of_PC_zero (Fin.ext hPC), hPC, Nat.zero_add]

/-- Settles O35: the two loops count the blocks they absorb; `FINALIZE` and the end of `SUM256` apply one more. -/
theorem permutationCounts : Obligations.PermutationCounts := by
  unfold Obligations.PermutationCounts
  intro e bytes
  have hloop : (sum256Loop bytes).perms = bytes.length / 136 := by
    rw [sum256Loop, absorbBlocks_closed, Nat.zero_add]
  exact ⟨rfl, writeWork_perms e bytes, rfl, congrArg (· + 1) hloop⟩

/-- Settles O31: no block is completed, and no byte is put into `PB`. -/
theorem writeEmptyChunkChangesNothing : Obligations.WriteEmptyChunkChangesNothing := by
  unfold Obligations.WriteEmptyChunkChangesNothing
  intro s
  have hsame : writeEngine s.cur.engine [] = s.cur.engine := by
    simp only [writeEngine, writeWork_of_short s.cur.engine [] s.cur.engine.PC.isLt, putPending_nil, List.length_nil,
      Nat.add_zero]
  have hexec := exec_eq (.write []) s
  rw [engineAfter, hsame] at hexec
  exact hexec

/-- What a read at `i` gives after `bytes` were put at `start`. -/
theorem putPending_getElem_eq_getD (PB : Pending) (start : Nat) (bytes : List Byte) (i : Nat) (hi : i < 136) :
    (putPending PB start bytes)[i] =
      if start ≤ i ∧ i - start < bytes.length then bytes.getD (i - start) 0 else PB[i] := by
  rw [putPending_getElem]
  split
  case isTrue h => exact (List.getD_eq_getElem _ _ h.2).symm
  case isFalse => rfl

/-- TOPUP with nothing pending. -/
theorem topUp_of_empty {w : WriteWork} (h : ¬0 < w.pc) : topUp w = w := if_neg h

/-- TOPUP, where it completes a block. -/
theorem topUp_writeStart_PB_of_full (e : Engine) (chunk : List Byte) (h0 : 0 < e.PC.val)
    (h : 136 ≤ e.PC.val + chunk.length) :
    (topUp (writeStart e chunk)).PB = putPending e.PB e.PC.val (chunk.take (136 - e.PC.val)) := by
  have hmin : min (136 - e.PC.val) chunk.length = 136 - e.PC.val := by omega
  simp [topUp, writeStart, h0, hmin]

/-- TOPUP, where it completes a block, puts the chunk after the pending bytes up to the end of `PB`. -/
theorem topUp_PB_getElem (e : Engine) (chunk : List Byte) (h : 136 ≤ e.PC.val + chunk.length) (i : Nat) (hi : i < 136) :
    (topUp (writeStart e chunk)).PB[i] =
      if 0 < e.PC.val ∧ e.PC.val ≤ i then chunk.getD (i - e.PC.val) 0 else e.PB[i] := by
  by_cases h0 : 0 < e.PC.val
  · rw [topUp_writeStart_PB_of_full e chunk h0 h, putPending_getElem]
    by_cases hPC : e.PC.val ≤ i
    · rw [dif_pos ⟨hPC, by rw [List.length_take]; omega⟩, if_pos ⟨h0, hPC⟩, List.getElem_take,
        List.getD_eq_getElem]
    · rw [dif_neg (fun hput => hPC hput.1), if_neg (fun hput => hPC hput.2)]
  · rw [topUp_of_empty h0, if_neg (fun hput => h0 hput.1), writeStart]

/-- What completes the pending bytes to a block does not come into the tail. -/
theorem tailBytes_pendingBytes_append (e : Engine) (chunk : List Byte) (h : 136 ≤ e.PC.val + chunk.length) :
    tailBytes (pendingBytes e ++ chunk) = tailBytes (chunk.drop (136 - e.PC.val)) := by
  have hblock : (pendingBytes e ++ chunk.take (136 - e.PC.val)).length % 136 = 0 := by
    have := e.PC.isLt
    rw [List.length_append, pendingBytes_length, List.length_take]
    omega
  have htail := tailBytes_append (chunk.drop (136 - e.PC.val)) hblock
  rwa [List.append_assoc, List.take_append_drop] at htail

/-- A `WRITE` that completes a block leaves `PB` as TOPUP left it, with the new tail put at its front. -/
theorem writeWork_PB_of_full (e : Engine) (chunk : List Byte) (h : 136 ≤ e.PC.val + chunk.length) :
    (writeWork e chunk).PB =
      putPending (topUp (writeStart e chunk)).PB 0 (tailBytes (pendingBytes e ++ chunk)) := by
  by_cases h0 : 0 < e.PC.val
  · rw [writeWork_of_full e chunk h0 h, topUp_writeStart_PB_of_full e chunk h0 h,
      tailBytes_pendingBytes_append e chunk h]
  · have hPC : e.PC = 0 := Fin.ext (by omega)
    rw [writeWork_of_PC_zero hPC, topUp_of_empty h0, pendingBytes_of_PC_zero hPC, List.nil_append, writeStart]

/-- The bytes of `PB` after a `WRITE`: the chunk after the pending bytes if no block is completed, and else the new
tail, behind it the bytes of a top-up, and the old ones (R93). -/
theorem writeEngine_PB_getElem (e : Engine) (chunk : List Byte) (i : Nat) (hi : i < 136) :
    (writeEngine e chunk).PB[i] =
      if e.PC.val + chunk.length < 136 then
        if e.PC.val ≤ i ∧ i - e.PC.val < chunk.length then chunk.getD (i - e.PC.val) 0 else e.PB[i]
      else if i < (e.PC.val + chunk.length) % 136 then (tailBytes (pendingBytes e ++ chunk)).getD i 0
      else if 0 < e.PC.val ∧ e.PC.val ≤ i then chunk.getD (i - e.PC.val) 0
      else e.PB[i] := by
  have hlen : (tailBytes (pendingBytes e ++ chunk)).length = (e.PC.val + chunk.length) % 136 := by
    rw [tailBytes_length, List.length_append, pendingBytes_length]
  by_cases hshort : e.PC.val + chunk.length < 136
  · simp only [writeEngine_PB, writeWork_of_short e chunk hshort, putPending_getElem_eq_getD, if_pos hshort]
  · simp only [writeEngine_PB, writeWork_PB_of_full e chunk (not_lt.mp hshort), putPending_getElem_eq_getD,
      topUp_PB_getElem e chunk (not_lt.mp hshort) i hi, hlen, if_neg hshort, Nat.zero_le, true_and, Nat.sub_zero]

/-- `PC` after a `WRITE` is what is left of the pending bytes and the chunk. -/
theorem writeEngine_PC_val_eq_mod (e : Engine) (chunk : List Byte) :
    (writeEngine e chunk).PC.val = (e.PC.val + chunk.length) % 136 := by
  obtain ⟨-, hpending⟩ := writeEngine_closed e chunk
  rw [← pendingBytes_length, hpending, tailBytes_length, List.length_append, pendingBytes_length]

/-- Settles O30: the closed form of `WRITE` for what can be observed, `PB` byte by byte, and the fields of any encoded
header. -/
theorem writeResult : Obligations.WriteResult := by
  unfold Obligations.WriteResult
  intro chunk s
  obtain ⟨hS, hpending⟩ := writeEngine_closed s.cur.engine chunk
  refine ⟨writeEngine s.cur.engine chunk, exec_eq (.write chunk) s, ?_, writeEngine_PC_val_eq_mod s.cur.engine chunk,
    hpending, writeEngine_PB_getElem s.cur.engine chunk, rfl, fun hlen => ?_⟩
  · rw [hS, absorbFrom_wholeBlocks]
  · exact ⟨encodeHeader_opc _, encodeHeader_rsvd _, encodeHeader_len (i := .write chunk) hlen⟩

end Sys2Proof.Machine
end

section
/-!
Lanes, the wide form of absorption, and the permutation's definition (20_memory.md sections 1 and 3; 44_permutation.md
section 2).
-/

namespace Sys2Proof.Machine

/-- Byte `k` of the lane at the front of a byte sequence (R33). -/
theorem firstLane_extractByte (l : List Byte) (h : 8 ≤ l.length) (k : Nat) (hk : k < 8) :
    (firstLane l).extractLsb' (8 * k) 8 = l[k] := by
  match l, h with
  | b0 :: b1 :: b2 :: b3 :: b4 :: b5 :: b6 :: b7 :: rest, _ =>
    rw [firstLane, joined_byte _ _ _ _ _ _ _ _ k hk]
    interval_cases k <;> rfl

/-- Two lanes with the same eight bytes are equal. -/
theorem lane_ext {v w : Lane} (h : ∀ k < 8, v.extractLsb' (8 * k) 8 = w.extractLsb' (8 * k) 8) : v = w := by
  rw [← headerOfBytes_headerBytes v, ← headerOfBytes_headerBytes w, h 0 (by decide), h 1 (by decide), h 2 (by decide),
    h 3 (by decide), h 4 (by decide), h 5 (by decide), h 6 (by decide), h 7 (by decide)]

/-- Byte `i` of the state is byte `i mod 8` of lane `i / 8`. -/
theorem lane_div_extractByte_mod (X : Sponge) (i : Nat) (hi : i < 200) :
    (lane X ⟨i / 8, by omega⟩).extractLsb' (8 * (i % 8)) 8 = X[i] := by
  rw [lane_extractByte X ⟨i / 8, by omega⟩ ⟨i % 8, by omega⟩]
  simp only [Nat.div_add_mod]

/-- Settles O20: a byte in a whole lane is XORed with the lane, a later one on its own. -/
theorem wideAbsorbEqualsByteAbsorb : Obligations.WideAbsorbEqualsByteAbsorb := by
  unfold Obligations.WideAbsorbEqualsByteAbsorb
  refine fun X blk => Vector.ext fun i hi => ?_
  rw [absorbBlockWide, vectorOf_getElem, absorbBlock_getElem]
  by_cases hlane : i < 8 * (blk.length / 8)
  · have hlen : 8 ≤ (blk.drop (8 * (i / 8))).length := by rw [List.length_drop]; omega
    rw [if_pos hlane, dif_pos (by omega), extract_xor, lane_div_extractByte_mod X i hi,
      firstLane_extractByte _ hlen _ (Nat.mod_lt _ (by decide)), List.getElem_drop]
    simp only [Nat.div_add_mod]
  · rw [if_neg hlane]
    rfl

theorem toGrid_getElem (X : Sponge) (x y : Nat) (hx : x < 5) (hy : y < 5) :
    (toGrid X)[x][y] = lane X ⟨x + 5 * y, by omega⟩ := by
  rw [toGrid, gridOf_getElem]

/-- Lane `x + 5y` of the bytes written back is lane `A[x, y]` (R123). -/
theorem lane_ofGrid (A : LaneGrid) (x y : Nat) (hx : x < 5) (hy : y < 5) :
    lane (ofGrid A) ⟨x + 5 * y, by omega⟩ = A[x][y] := by
  refine lane_ext fun k hk => ?_
  have hx' : (8 * (x + 5 * y) + k) / 8 % 5 = x := by omega
  have hy' : (8 * (x + 5 * y) + k) / 40 = y := by omega
  have hk' : (8 * (x + 5 * y) + k) % 8 = k := by omega
  rw [lane_extractByte _ _ ⟨k, hk⟩, ofGrid_getElem]
  simp only [hx', hy', hk']

theorem ofGrid_toGrid (X : Sponge) : ofGrid (toGrid X) = X := by
  refine Vector.ext fun i hi => ?_
  have hlane : i / 8 % 5 + 5 * (i / 40) = i / 8 := by omega
  rw [ofGrid_getElem, toGrid_getElem]
  simp only [hlane]
  exact lane_div_extractByte_mod X i hi

theorem toGrid_ofGrid (A : LaneGrid) : toGrid (ofGrid A) = A :=
  Vector.ext fun x hx => Vector.ext fun y hy => by rw [toGrid_getElem, lane_ofGrid]

/-- Settles O22: the layout read and written, and the two round trips that follow. -/
theorem permutationGridRoundTrip : Obligations.PermutationGridRoundTrip := by
  unfold Obligations.PermutationGridRoundTrip
  exact ⟨fun X x y => toGrid_getElem X x y x.isLt y.isLt, fun A x y => lane_ofGrid A x y x.isLt y.isLt, ofGrid_toGrid,
    toGrid_ofGrid⟩

/-- The place `(y, 2x + 3y)` that step π moves `(x, y)` to is the one it is read at, modulo 5. -/
theorem piStep_source (x y : Fin 5) : y + 3 * (2 * x + 3 * y) = x := by
  revert x y
  decide

/-- Steps ρ and π move a lane to its place, rotated (R119, R120). -/
theorem piStep_rho_getElem (A : LaneGrid) (x y : Fin 5) :
    (piStep (rho A))[y][2 * x + 3 * y] = rotl A[x][y] (rhoOffset x y) := by
  simp only [piStep, rho, Fin.getElem_fin, gridOf_getElem, Fin.eta, piStep_source]

/-- A rotation left by `r` moves bit `i` to bit `i + r` modulo 64. -/
theorem rotl_getLsbD (v : Lane) (r i : Nat) (hi : i < 64) : (rotl v r).getLsbD ((i + r) % 64) = v.getLsbD i := by
  rw [rotl, BitVec.getLsbD_rotateLeft]
  by_cases hwrap : (i + r) % 64 < r % 64
  · have hback : 64 - r % 64 + (i + r) % 64 = i := by omega
    rw [decide_eq_true hwrap, cond_true, hback]
  · have hback : (i + r) % 64 - r % 64 = i := by omega
    have hlt : (i + r) % 64 < 64 := by omega
    rw [decide_eq_false hwrap, cond_false, hback, decide_eq_true hlt, Bool.true_and]

/-- Settles O23: each lane's move, the rotation bit by bit, and the table evaluated. -/
theorem rhoPiMoveLanes : Obligations.RhoPiMoveLanes := by
  unfold Obligations.RhoPiMoveLanes
  exact ⟨piStep_rho_getElem, rotl_getLsbD, by decide⟩

/-- Settles O24: the lane equations of θ, χ and ι, the permutation opened, and the constants evaluated. -/
theorem roundStepsFollowReference : Obligations.RoundStepsFollowReference := by
  unfold Obligations.RoundStepsFollowReference
  refine ⟨fun A x y => ?_, fun B x y => ?_, fun A ir x y => ?_, fun A ir => rfl, keccakF_eq, by decide⟩
  · simp only [theta, Fin.getElem_fin, gridOf_getElem, vectorOf_getElem, Fin.eta]
  · simp only [chi, Fin.getElem_fin, gridOf_getElem, Fin.eta]
  · simp only [iota, Fin.getElem_fin, gridOf_getElem, Fin.eta]

/-- Settles O28: neither a block's bytes nor the two padded positions reach byte 136. -/
theorem capacityIsNeverXored : Obligations.CapacityIsNeverXored := by
  unfold Obligations.CapacityIsNeverXored
  intro X blk t i hi hblk ht hcap
  have hnot_tail : i ≠ t := by omega
  have hnot_end : i ≠ 135 := by omega
  constructor
  · rw [absorbBlock_getElem, dif_neg (by omega)]
  · simp [pad_getElem, hnot_tail, hnot_end]

end Sys2Proof.Machine
end

section
/-!
The byte operand forms of the assembler (30_encoding.md section 7).
-/

namespace Sys2Proof.Machine

theorem seqBytes_length (n : Nat) : (seqBytes n).length = n := by
  simp [seqBytes]

/-- Byte `i` of `seq(n)`. -/
theorem seqBytes_getElem (n i : Nat) (h : i < (seqBytes n).length) : (seqBytes n)[i].toNat = i % 256 := by
  simp [seqBytes]

theorem sliceBytes_length {s : List Byte} {i j : Nat} (h : j ≤ s.length) : (sliceBytes s i j).length = j - i := by
  rw [sliceBytes, List.length_drop, List.length_take_of_le h]

/-- A slice's bytes are those of the sequence, from `i` on. -/
theorem sliceBytes_getElem (s : List Byte) (i j k : Nat) (h : k < (sliceBytes s i j).length) :
    (sliceBytes s i j)[k] = s[i + k]'(by simp [sliceBytes] at h; omega) := by
  simp [sliceBytes]

/-- The code of an ASCII character is one byte. -/
theorem bytesOf_text_toNat {chars : List Char} (h : ∀ c ∈ chars, c.toNat < 128) :
    (bytesOf (.text chars)).map BitVec.toNat = chars.map Char.toNat := by
  rw [bytesOf, List.map_map]
  refine List.map_congr_left fun c hc => ?_
  have hlt := h c hc
  exact Nat.mod_eq_of_lt (by omega)

/-- A list of digits is read when its first two are hex digits and the others are read, and so is its first byte. -/
theorem hexBytes_cons_cons_eq_some_iff {a b : Char} {cs : List Char} {bytes : List Byte} :
    hexBytes (a :: b :: cs) = some bytes ↔ ∃ x y rest, hexDigit a = some x ∧ hexDigit b = some y ∧
      hexBytes cs = some rest ∧ bytes = BitVec.ofNat 8 (16 * x + y) :: rest := by
  rw [hexBytes]
  cases hexDigit a with
  | none => simp
  | some x =>
    cases hexDigit b with
    | none => simp
    | some y =>
      cases hexBytes cs with
      | none => simp
      | some rest => simp [eq_comm]

/-- A hex digit is below 16. -/
theorem hexDigit_lt {c : Char} {x : Nat} (h : hexDigit c = some x) : x < 16 := by
  rw [hexDigit] at h
  split at h
  case isTrue hdigit =>
    have hle : c.toNat ≤ 57 := (Char.isDigit_iff_toNat.mp hdigit).2
    obtain rfl := Option.some.inj h
    omega
  case isFalse =>
    split at h
    case isTrue =>
      obtain rfl := Option.some.inj h
      omega
    case isFalse =>
      obtain ⟨_, hx⟩ := Option.ite_none_right_eq_some.mp h
      obtain rfl := Option.some.inj hx
      omega

/-- Digits that can be read come in pairs. -/
theorem length_of_hexBytes_eq_some :
    ∀ {digits : List Char} {bytes : List Byte}, hexBytes digits = some bytes → digits.length = 2 * bytes.length
  | [], _, h => by
    obtain rfl := Option.some.inj h
    rfl
  | [_], _, h => nomatch h
  | _ :: _ :: _, _, h => by
    obtain ⟨_, _, rest, -, -, hrest, rfl⟩ := hexBytes_cons_cons_eq_some_iff.mp h
    have := length_of_hexBytes_eq_some hrest
    simp only [List.length_cons]
    omega

/-- Hex digits in pairs can be read. -/
theorem hexBytes_isSome_of_even : ∀ {digits : List Char}, digits.length % 2 = 0 →
    (∀ c ∈ digits, (hexDigit c).isSome = true) → (hexBytes digits).isSome = true
  | [], _, _ => rfl
  | [_], hlen, _ => absurd hlen Nat.one_ne_zero
  | a :: b :: cs, hlen, hhex => by
    obtain ⟨ha, hbcs⟩ := List.forall_mem_cons.mp hhex
    obtain ⟨hb, hcs⟩ := List.forall_mem_cons.mp hbcs
    obtain ⟨x, hx⟩ := Option.isSome_iff_exists.mp ha
    obtain ⟨y, hy⟩ := Option.isSome_iff_exists.mp hb
    have heven : cs.length % 2 = 0 := by
      simp only [List.length_cons] at hlen
      omega
    obtain ⟨rest, hrest⟩ := Option.isSome_iff_exists.mp (hexBytes_isSome_of_even heven hcs)
    exact Option.isSome_iff_exists.mpr ⟨_, hexBytes_cons_cons_eq_some_iff.mpr ⟨x, y, rest, hx, hy, hrest, rfl⟩⟩

/-- Byte `k` is read from digits `2k` and `2k + 1`, the high one first. -/
theorem digits_of_hexBytes_eq_some : ∀ {digits : List Char} {bytes : List Byte} {k : Nat},
    hexBytes digits = some bytes → k < bytes.length → ∃ hi lo : Nat, hi < 16 ∧ lo < 16 ∧
      (digits[2 * k]?.bind hexDigit) = some hi ∧ (digits[2 * k + 1]?.bind hexDigit) = some lo ∧
      (bytes.getD k 0).toNat = 16 * hi + lo
  | [], _, _, h, hk => by
    obtain rfl := Option.some.inj h
    exact absurd hk (Nat.not_lt_zero _)
  | [_], _, _, h, _ => nomatch h
  | a :: b :: cs, _, k, h, hk => by
    obtain ⟨x, y, rest, hx, hy, hrest, rfl⟩ := hexBytes_cons_cons_eq_some_iff.mp h
    cases k with
    | zero =>
      have hx16 := hexDigit_lt hx
      have hy16 := hexDigit_lt hy
      exact ⟨x, y, hx16, hy16, hx, hy, Nat.mod_eq_of_lt (by omega)⟩
    | succ k => exact digits_of_hexBytes_eq_some (k := k) hrest (Nat.lt_of_succ_lt_succ hk)

/-- Settles O55: each form by its bytes, the hex digits pair by pair, and the table and examples evaluated. -/
theorem byteForms : Obligations.ByteForms := by
  unfold Obligations.ByteForms
  refine ⟨fun n b => ⟨List.length_replicate, fun x hx => (List.mem_replicate.mp hx).2⟩, fun n => ?_, fun n i j hj => ?_,
    fun x y => rfl, fun chars h => bytesOf_text_toNat h, fun bytes => rfl, fun digits hodd => ?_,
    fun digits heven hhex => hexBytes_isSome_of_even heven hhex,
    fun digits bytes h => ⟨length_of_hexBytes_eq_some h, fun k hk => digits_of_hexBytes_eq_some h hk⟩,
    by decide, by decide, by decide⟩
  · refine ⟨seqBytes_length n, fun i hi => ?_⟩
    rw [bytesOf, List.getD_eq_getElem _ _ (by rwa [seqBytes_length]), seqBytes_getElem]
  · have hlen : (sliceBytes (seqBytes n) i j).length = j - i := sliceBytes_length (by rwa [seqBytes_length])
    refine ⟨hlen, fun k hk => ?_⟩
    rw [bytesOf, List.getD_eq_getElem _ _ (by rwa [hlen]), sliceBytes_getElem, seqBytes_getElem]
  · refine Option.eq_none_iff_forall_ne_some.mpr fun bytes h => ?_
    have := length_of_hexBytes_eq_some h
    omega

end Sys2Proof.Machine
end
